-- ==== Sys2Proof/Word.lean ====
section
/-! DEFINITION. The unit of storage of NTPWC and its one fixed size.
The block has no machine word: its ports hold numbers and records (10_state.md R27), and the smallest
addressable unit of its spaces is the byte (20_memory.md R54). -/

namespace Sys2Proof

/-- `u8`: an unsigned 8-bit vector (00_scope.md R14). -/
abbrev Byte := BitVec 8

/-- `FRAME_LEN`: "Total on-wire size is exactly 48 bytes" (00_scope.md R11). -/
abbrev frameLen : Nat := 48

end Sys2Proof
end

