-- ==== Sys2Proof/Syntax.lean ====
section
/-! DEFINITION. The operations of NTPWC: one constructor per row of spec/opcode_table.json
(30_encoding.md R71). There is one format, `CMD8`, with no operand field (R70): every operand comes
from an operand port, so no constructor has an argument. -/

namespace Sys2Proof

/-- The eight operations a command word can select (30_encoding.md R71). -/
inductive Instr where
  /-- ENCODE, 41_framer.md R130. -/
  | encode
  /-- DECODE, 41_framer.md R131. -/
  | decode
  /-- BUILD_REQUEST, 41_framer.md R134. -/
  | buildRequest
  /-- FLAGS_PACK, 40_bitpack.md R110. -/
  | flagsPack
  /-- FLAGS_UNPACK, 40_bitpack.md R111. -/
  | flagsUnpack
  /-- TS64_TO_LOCAL, 42_timestamp.md R161. -/
  | ts64ToLocal
  /-- TS32_TO_NANOS, 42_timestamp.md R162. -/
  | ts32ToNanos
  /-- REFID_RENDER, 43_refid.md R180. -/
  | refidRender
deriving DecidableEq, Repr

/-- The mnemonic of 30_encoding.md R71, as spec/opcode_table.json spells it. -/
def Instr.mnemonic : Instr → String
  | .encode => "ENCODE"
  | .decode => "DECODE"
  | .buildRequest => "BUILD_REQUEST"
  | .flagsPack => "FLAGS_PACK"
  | .flagsUnpack => "FLAGS_UNPACK"
  | .ts64ToLocal => "TS64_TO_LOCAL"
  | .ts32ToNanos => "TS32_TO_NANOS"
  | .refidRender => "REFID_RENDER"

/-- Every operation, in the order of 30_encoding.md R71. -/
def Instr.all : List Instr :=
  [.encode, .decode, .buildRequest, .flagsPack, .flagsUnpack, .ts64ToLocal, .ts32ToNanos,
    .refidRender]

end Sys2Proof
end

