-- ==== Sys2Proof/WellFormed.lean ====
section
/-! DEFINITION. When an instruction is well formed. A command word has no operand field
(30_encoding.md R70), so an operation has nothing that could be ill formed; what the spec does check is
the configuration (00_scope.md R10: `Sys2Proof.Machine.admitted`) and the port and type of a host access
(10_state.md R40 to R44: `Sys2Proof.Machine.HostAction.allowed`). -/

namespace Sys2Proof

/-- Every operation of 30_encoding.md R71 is a legal instruction, with no operand to check. -/
def Instr.wellFormed : Instr → Bool
  | .encode => true
  | .decode => true
  | .buildRequest => true
  | .flagsPack => true
  | .flagsUnpack => true
  | .ts64ToLocal => true
  | .ts32ToNanos => true
  | .refidRender => true

end Sys2Proof
end

