-- ==== Sys2Proof/Decode.lean ====
section
/-! DEFINITION. The command-word decoder of 30_encoding.md R72, total on all 256 bytes and rejecting
by name, and the encoder of R71. -/

namespace Sys2Proof

/-- Why a command word names no operation (30_encoding.md R73). Both reasons raise `IllegalCommand`. -/
inductive DecodeError where
  /-- bits 7:4 (`rsv`) are not `0000` (R70, R73). -/
  | reservedBits (word : Byte)
  /-- bits 3:0 (`op`) are 0x0 or 0x9..0xF (R71, R73). -/
  | reservedOp (word : Byte)
deriving DecidableEq, Repr

/-- Field `rsv`, bits 7:4 of a command word (30_encoding.md R70). -/
def rsvField (w : Byte) : BitVec 4 := w.extractLsb' 4 4

/-- Field `op`, bits 3:0 of a command word (30_encoding.md R70). -/
def opField (w : Byte) : BitVec 4 := w.extractLsb' 0 4

/-- The operation map of 30_encoding.md R71. -/
def opMap (op : BitVec 4) : Option Instr :=
  match op.toNat with
  | 0x1 => some .encode
  | 0x2 => some .decode
  | 0x3 => some .buildRequest
  | 0x4 => some .flagsPack
  | 0x5 => some .flagsUnpack
  | 0x6 => some .ts64ToLocal
  | 0x7 => some .ts32ToNanos
  | 0x8 => some .refidRender
  | _ => none

/-- Decoding a command word (30_encoding.md R72). -/
def decode (w : Byte) : Except DecodeError Instr :=
  if rsvField w ≠ 0 then .error (.reservedBits w)
  else
    match opMap (opField w) with
    | some i => .ok i
    | none => .error (.reservedOp w)

/-- Field `op` of each operation (30_encoding.md R71). -/
def opCode : Instr → BitVec 4
  | .encode => 0x1
  | .decode => 0x2
  | .buildRequest => 0x3
  | .flagsPack => 0x4
  | .flagsUnpack => 0x5
  | .ts64ToLocal => 0x6
  | .ts32ToNanos => 0x7
  | .refidRender => 0x8

/-- The command word of an operation: `rsv ++ op` with `rsv = 0000` (30_encoding.md R70, R71). -/
def encode (i : Instr) : Byte := (0 : BitVec 4) ++ opCode i

/-- The instruction the decoder reads from a command whose bits are `w`, as spec/opcode_table.json
numbers them. A command is one byte (30_encoding.md R74), so any other length is none. -/
def decodeTableWord (nbits w : Nat) : Option Instr :=
  if nbits = 8 ∧ w < 256 then
    match decode (BitVec.ofNat 8 w) with
    | .ok i => some i
    | .error _ => none
  else none

end Sys2Proof
end

