-- ==== Sys2Proof/Config.lean ====
section
/-! DEFINITION. What an implementation of NTPWC fixes: its identity and the two OPEN parameters
`U` and `E` (00_scope.md R4, R8, R9). The spec leaves no value of a result open, so there is no free
value here. -/

namespace Sys2Proof

/-- "The spec's identifier for the hardware" (00_scope.md R4). -/
def identifier : String := "NTPWC-NTPv4-48"

/-- The configuration of an instance, fixed for its life (10_state.md R21, 92_eei_decisions.md D23).
Which pairs are admitted is `Sys2Proof.Machine.admitted` (00_scope.md R10). -/
structure Config where
  /-- `LOCAL_UNITS_PER_SECOND`, symbol `U` (00_scope.md R8). -/
  unitsPerSecond : Nat
  /-- `EPOCH_OFFSET_LOCAL`, symbol `E` (00_scope.md R9). -/
  epochOffset : Int
deriving DecidableEq, Repr

/-- `CFG-A` of 95_test_vectors.md: 100-nanosecond ticks from 1601 (00_scope.md R9, first example).
DESIGN CHOICE (log 1): the configuration `State.reset` holds. The spec leaves `U` and `E` OPEN, so no
statement rests on this value. -/
def Config.exampleA : Config := ⟨10000000, 94354848000000000⟩

/-- `CFG-B` of 95_test_vectors.md: nanoseconds from 1970 (00_scope.md R9, second example). -/
def Config.exampleB : Config := ⟨1000000000, -2208988800000000000⟩

end Sys2Proof
end

