-- ==== Sys2Proof/Machine/Types.lean ====
section
/-! DEFINITION. The data types of 10_state.md section 2 (R22 to R26), each field exactly its stated
width (92_eei_decisions.md D9). -/

namespace Sys2Proof.Machine

/-- `NtpTimestamp64`, unsigned 32.32 fixed point, seconds since 1900-01-01 (10_state.md R22). -/
structure NtpTimestamp64 where
  seconds : BitVec 32
  fraction : BitVec 32
deriving DecidableEq, Repr

/-- `NtpTimestamp32`, the short format, unsigned 16.16 fixed point (10_state.md R23). -/
structure NtpTimestamp32 where
  seconds : BitVec 16
  fraction : BitVec 16
deriving DecidableEq, Repr

/-- `FlagFields`, the three sub-byte fields of the flag byte (10_state.md R25). -/
structure FlagFields where
  leapIndicator : BitVec 2
  version : BitVec 3
  mode : BitVec 3
deriving DecidableEq, Repr

/-- A reference-ID: an array of 4 `u8`, index 0..3 (10_state.md R24, field 9). -/
abbrev RefId := Vector Byte 4

/-- `Frame`: a byte sequence of length exactly 48, byte 0 first on the wire (10_state.md R26). -/
abbrev Frame := Vector Byte frameLen

/-- `NtpPacket`, exactly these thirteen fields in this order (10_state.md R24). `poll` is raw unsigned
bits; `precision` is an `s8`, held as its two's-complement bits and read by `BitVec.toInt`. -/
structure NtpPacket where
  leapIndicator : BitVec 2
  version : BitVec 3
  mode : BitVec 3
  stratum : Byte
  poll : Byte
  precision : BitVec 8
  rootDelay : NtpTimestamp32
  rootDispersion : NtpTimestamp32
  referenceId : RefId
  reference : NtpTimestamp64
  origin : NtpTimestamp64
  receive : NtpTimestamp64
  transmit : NtpTimestamp64
deriving DecidableEq, Repr

/-- A value that crosses the host interface: one constructor per port type of the map in
10_state.md R27. -/
inductive PortValue where
  /-- `u8`: STATUS, FAULTS, BYTE_IN, STRATUM_IN, FLAGS_OUT. -/
  | byte (v : Byte)
  /-- `Nat`: CONFIG_U, OFF_IN, OFF_OUT. -/
  | nat (v : Nat)
  /-- `s64`: CONFIG_E, LOCAL_OUT. -/
  | s64 (v : BitVec 64)
  /-- `u64`: NANOS_OUT. -/
  | u64 (v : BitVec 64)
  /-- `Bytes`: BUF_IN, TEXT_OUT. -/
  | bytes (v : List Byte)
  /-- `NtpPacket`: PKT_IN, PKT_OUT. -/
  | packet (v : NtpPacket)
  /-- `NtpTimestamp64`: TS64_IN. -/
  | ts64 (v : NtpTimestamp64)
  /-- `NtpTimestamp32`: TS32_IN. -/
  | ts32 (v : NtpTimestamp32)
  /-- `FlagFields`: FLD_IN, FLD_OUT. -/
  | fields (v : FlagFields)
  /-- array of 4 `u8`: REFID_IN. -/
  | refId (v : RefId)
  /-- `Frame`: FRAME_OUT. -/
  | frame (v : Frame)
deriving DecidableEq, Repr

end Sys2Proof.Machine
end

