-- ==== Sys2Proof/Machine/Ports.lean ====
section
/-! DEFINITION. The port map of 10_state.md R27: the ports by name and number, which of them are
operand ports and result registers (R28), and which each command reads and writes (R29, R30). -/

namespace Sys2Proof.Machine

/-- The named ports (10_state.md R27). -/
inductive Port where
  | cmd | status | faults | configU | configE
  | pktIn | bufIn | offIn | ts64In | ts32In | byteIn | fldIn | stratumIn | refidIn
  | frameOut | pktOut | offOut | localOut | nanosOut | flagsOut | fldOut | textOut
deriving DecidableEq, Repr

/-- The operand ports 0x10..0x18 (10_state.md R28). -/
def operandPorts : List Port :=
  [.pktIn, .bufIn, .offIn, .ts64In, .ts32In, .byteIn, .fldIn, .stratumIn, .refidIn]

/-- The result registers 0x20..0x27 (10_state.md R28). -/
def resultPorts : List Port :=
  [.frameOut, .pktOut, .offOut, .localOut, .nanosOut, .flagsOut, .fldOut, .textOut]

/-- Every port of the map (10_state.md R27). -/
def allPorts : List Port :=
  [.cmd, .status, .faults, .configU, .configE] ++ operandPorts ++ resultPorts

/-- The port number (10_state.md R27). -/
def portNumber : Port → Byte
  | .cmd => 0x00
  | .status => 0x01
  | .faults => 0x02
  | .configU => 0x03
  | .configE => 0x04
  | .pktIn => 0x10
  | .bufIn => 0x11
  | .offIn => 0x12
  | .ts64In => 0x13
  | .ts32In => 0x14
  | .byteIn => 0x15
  | .fldIn => 0x16
  | .stratumIn => 0x17
  | .refidIn => 0x18
  | .frameOut => 0x20
  | .pktOut => 0x21
  | .offOut => 0x22
  | .localOut => 0x23
  | .nanosOut => 0x24
  | .flagsOut => 0x25
  | .fldOut => 0x26
  | .textOut => 0x27

/-- The port a number names. "Port numbers not in this table (0x05..0x0F, 0x19..0x1F, 0x28..0xFF) name
no port" (10_state.md R27). -/
def portOfNumber (n : Byte) : Option Port :=
  allPorts.find? fun p => portNumber p == n

/-- The operand ports each command reads (10_state.md R29). -/
def operandsOf : Instr → List Port
  | .encode => [.pktIn]
  | .decode => [.bufIn, .offIn]
  | .buildRequest => []
  | .flagsPack => [.fldIn]
  | .flagsUnpack => [.byteIn]
  | .ts64ToLocal => [.ts64In]
  | .ts32ToNanos => [.ts32In]
  | .refidRender => [.stratumIn, .refidIn]

/-- The result registers each command writes when it completes with OK (10_state.md R30). -/
def resultsOf : Instr → List Port
  | .encode => [.frameOut]
  | .decode => [.pktOut, .offOut]
  | .buildRequest => [.frameOut]
  | .flagsPack => [.flagsOut]
  | .flagsUnpack => [.fldOut]
  | .ts64ToLocal => [.localOut]
  | .ts32ToNanos => [.nanosOut]
  | .refidRender => [.textOut]

end Sys2Proof.Machine
end

