-- ==== Sys2Proof/Machine/State.lean ====
section
/-! DEFINITION. The state of an NTPWC instance and of the host run that drives it (10_state.md), its
reset state (R39), and the reasons a step can stop. -/

namespace Sys2Proof.Machine

/-- A port's value with its `written` bit (10_state.md R28). A slot whose bit is clear holds no value:
"value unspecified and unreadable", and "A model must not give a port a value at reset" (R39; 93 I7).
DEDUCED, safe (log 4). -/
inductive Slot (α : Type) where
  /-- the `written` bit is clear. -/
  | unwritten
  /-- the `written` bit is set and the port holds `v`. -/
  | holds (v : α)
deriving DecidableEq, Repr

/-- The `written` bit (10_state.md R28). -/
def Slot.written {α : Type} : Slot α → Bool
  | .unwritten => false
  | .holds _ => true

/-- The slot seen as a value of another type; the `written` bit is kept. -/
def Slot.map {α β : Type} (f : α → β) : Slot α → Slot β
  | .unwritten => .unwritten
  | .holds v => .holds (f v)

/-- STATUS, the outcome of the most recent command (10_state.md R34). Its u8 values are
`Sys2Proof.Machine.statusCode`; "Values 5..255 are never produced". -/
inductive Status where
  /-- no command since reset. -/
  | none
  /-- the command completed and wrote its results. -/
  | ok
  /-- DECODE found fewer than 48 bytes at OFF_IN (60_exceptions.md R201). -/
  | truncatedPacket
  /-- the command word is reserved (60_exceptions.md R202). -/
  | illegalCommand
  /-- the command read an operand port whose `written` bit was clear (60_exceptions.md R203). -/
  | unwrittenPort
deriving DecidableEq, Repr

/-- The operand ports 0x10..0x18 (10_state.md R27). -/
structure Operands where
  pktIn : Slot NtpPacket
  bufIn : Slot (List Byte)
  offIn : Slot Nat
  ts64In : Slot NtpTimestamp64
  ts32In : Slot NtpTimestamp32
  byteIn : Slot Byte
  fldIn : Slot FlagFields
  stratumIn : Slot Byte
  refidIn : Slot RefId
deriving DecidableEq, Repr

/-- The result registers 0x20..0x27 (10_state.md R27). -/
structure Results where
  frameOut : Slot Frame
  pktOut : Slot NtpPacket
  offOut : Slot Nat
  localOut : Slot (BitVec 64)
  nanosOut : Slot (BitVec 64)
  flagsOut : Slot Byte
  fldOut : Slot FlagFields
  textOut : Slot (List Byte)
deriving DecidableEq, Repr

/-- A host action (10_state.md R40 to R43). Ports are given by number, so that an access the spec has
no move for (R44) can be written down, and is refused. -/
inductive HostAction where
  /-- WRITE(port, v), R40. -/
  | write (port : Byte) (v : PortValue)
  /-- ISSUE(cmd), R41. -/
  | issue (word : Byte)
  /-- READ(port), R42. -/
  | read (port : Byte)
  /-- RESET, R43. -/
  | reset
deriving DecidableEq, Repr

/-- The host's run (10_state.md R45): no state of the block, so RESET leaves it alone. -/
structure HostRun where
  /-- the host program, a finite list of actions run in order (R45). -/
  program : List HostAction
  /-- the host index `h` into it, starting at 0 (R45). -/
  h : Nat
  /-- the run-level fault record that RESET does not clear (60_exceptions.md R209). -/
  faulted : Bool
  /-- what the most recent READ returned to the host, none where it returned no value (R42).
  The model's own field, DESIGN CHOICE, safe (log 7). -/
  readValue : Option PortValue
deriving DecidableEq, Repr

/-- The whole state. The configuration is "a parameter of the step relation" (10_state.md R21) and is
held here as data no action changes (log 1); it is also what CONFIG_U and CONFIG_E read (R27). -/
structure State where
  config : Config
  operands : Operands
  results : Results
  status : Status
  /-- FAULTS, a sticky 8-bit set (10_state.md R35). -/
  faults : BitVec 8
  run : HostRun
deriving DecidableEq, Repr

/-- Why the machine stops for good. The spec has no such reason: every fault of 60_exceptions.md ends
its action and the host goes on (R209), and "No command can hang, wait or block"
(70_reset_and_hazards.md R238). So there is no constructor, and no step faults. Safe (log 6). -/
inductive Fault where
deriving DecidableEq, Repr

/-- Why a step has no meaning. Each is safe: nothing can be proved of a run past it. -/
inductive Refusal where
  /-- An instruction the model has not reached, by mnemonic. Raised by a refused arm of exec only; exec
  has none. Safe. -/
  | notModelled (mnemonic : String)
  /-- The configuration fails 00_scope.md R10: "no NTPWC instance. The model refuses it before the first
  host action, and no command runs under it" (60_exceptions.md R205). Raised by step, by every meaning
  and by `instantiate`. Safe. -/
  | configurationRefused
  /-- A host access the model has no move for (10_state.md R44). Raised by WRITE and READ. Safe. -/
  | noMove
  /-- The host index has reached the end of the program: the run has ended and there is no action to
  take (70_reset_and_hazards.md R239). Raised by step. Safe (log 3). -/
  | runEnded
deriving DecidableEq, Repr

/-- The outcome of a step of this machine. -/
abbrev Outcome := Host.Outcome State Fault Refusal

/-- Every operand port with its `written` bit clear (10_state.md R39). -/
def Operands.reset : Operands :=
  { pktIn := .unwritten, bufIn := .unwritten, offIn := .unwritten, ts64In := .unwritten,
    ts32In := .unwritten, byteIn := .unwritten, fldIn := .unwritten, stratumIn := .unwritten,
    refidIn := .unwritten }

/-- Every result register with its `written` bit clear (10_state.md R39). -/
def Results.reset : Results :=
  { frameOut := .unwritten, pktOut := .unwritten, offOut := .unwritten, localOut := .unwritten,
    nanosOut := .unwritten, flagsOut := .unwritten, fldOut := .unwritten, textOut := .unwritten }

/-- A run that has taken no action of the program `p` (10_state.md R45). -/
def HostRun.start (p : List HostAction) : HostRun :=
  { program := p, h := 0, faulted := false, readValue := none }

/-- A new instance under the configuration `c` (10_state.md R39; 70_reset_and_hazards.md R231), with a
host that has no action to take. -/
def State.resetWith (c : Config) : State :=
  { config := c, operands := .reset, results := .reset, status := .none, faults := 0,
    run := .start [] }

/-- The machine right after reset. Its configuration is an example of the spec, since `U` and `E` are
OPEN: DESIGN CHOICE, unsafe (log 1). -/
def State.reset : State := .resetWith .exampleA

end Sys2Proof.Machine
end

