-- ==== Sys2Proof/Machine/Flags.lean ====
section
/-! DEFINITION. STATUS and FAULTS, which play the roles of a condition code and a fault register
(10_state.md R34 to R36): their encodings and every way they are written. -/

namespace Sys2Proof.Machine

/-- The u8 encoding of STATUS (10_state.md R34). -/
def statusCode : Status → Byte
  | .none => 0
  | .ok => 1
  | .truncatedPacket => 2
  | .illegalCommand => 3
  | .unwrittenPort => 4

/-- FAULTS bit 0 (10_state.md R35). -/
def illegalCommandBit : BitVec 8 := 0x01

/-- FAULTS bit 1 (10_state.md R35). -/
def unwrittenPortBit : BitVec 8 := 0x02

/-- What a READ of FAULTS gives: "bits 7:2 reserved, always read zero" (10_state.md R35). -/
def faultsRead (faults : BitVec 8) : Byte := faults &&& (illegalCommandBit ||| unwrittenPortBit)

/-- A fault sets its FAULTS bit, which is sticky (10_state.md R35), and marks the run as faulted in the
run-level record (60_exceptions.md R209). -/
def raiseFault (bit : BitVec 8) (s : State) : State :=
  { s with faults := s.faults ||| bit, run := { s.run with faulted := true } }

/-- STATUS is written once, at the end of a command (10_state.md R34). -/
def endCommand (outcome : Status) (s : State) : State :=
  { s with status := outcome }

end Sys2Proof.Machine
end

