-- ==== Sys2Proof/Machine/Ops.lean ====
section
/-! DEFINITION. The named operations every command is built from: the spaces (20_memory.md R54), the
admission of a configuration (00_scope.md R10), the end of a command with and without success
(60_exceptions.md R208), and RESET (70_reset_and_hazards.md R230). -/

namespace Sys2Proof.Machine

/-- `MemRead(BUF_IN, a, 1)`: byte `a` of the input buffer, "defined only for `a < L`" (00_scope.md R15,
20_memory.md R54), which the proof argument says. -/
def memRead (buf : List Byte) (a : Nat) (h : a < buf.length) : Byte := buf[a]

/-- The 48 bytes DECODE reads, `MemRead(BUF_IN, o + i, 1)` for `i` in 0..47, and no other
(20_memory.md R56, 41_framer.md R131). -/
def readFrame (buf : List Byte) (o : Nat) (h : o + frameLen ≤ buf.length) : Frame :=
  Vector.ofFn fun i : Fin frameLen => memRead buf (o + i.val) (by omega)

/-- `MemWrite(FRAME_OUT, a, 1, v)` for `a` in 0..47 (00_scope.md R15, 20_memory.md R54), on the frame
the register holds. -/
def memWrite (f : Frame) (a : Fin frameLen) (v : Byte) : Frame := f.set a.val v a.isLt

/-- Write all 48 bytes of FRAME_OUT, `for a in 0 .. 47: MemWrite(FRAME_OUT, a, 1, f[a])` (41_framer.md
R130, R134). "No byte keeps an earlier value" (20_memory.md R58): the register holds `f` after it,
whatever it held. `frame_of_memWrites` in Laws/Ops.lean is the loop. -/
def storeFrame (f : Frame) (r : Results) : Results := { r with frameOut := .holds f }

/-- The largest result of TS64_TO_LOCAL under a configuration (00_scope.md R10, 42_timestamp.md R161). -/
def largestLocal (c : Config) : Int :=
  c.epochOffset + ((2 ^ 32 - 1) * c.unitsPerSecond : Nat)
    + ((2 ^ 32 - 1) * c.unitsPerSecond / 2 ^ 32 : Nat)

/-- Configuration well-formedness (00_scope.md R10). -/
def admitted (c : Config) : Bool :=
  decide (1 ≤ c.unitsPerSecond) && decide (c.unitsPerSecond ≤ 2 ^ 32)
    && decide (-2 ^ 63 ≤ c.epochOffset) && decide (largestLocal c ≤ 2 ^ 63 - 1)

/-- A transition of an instance. "A configuration that fails 00_scope.md rule R10 gives no NTPWC
instance ... and no command runs under it" (60_exceptions.md R205). -/
def underConfig (s : State) (t : State) : Outcome :=
  if admitted s.config then .next t else .refused .configurationRefused

/-- Clear the `written` bits of the result registers of the command `i` (10_state.md R30, R31). -/
def clearResults (i : Instr) (r : Results) : Results :=
  match i with
  | .encode => { r with frameOut := .unwritten }
  | .decode => { r with pktOut := .unwritten, offOut := .unwritten }
  | .buildRequest => { r with frameOut := .unwritten }
  | .flagsPack => { r with flagsOut := .unwritten }
  | .flagsUnpack => { r with fldOut := .unwritten }
  | .ts64ToLocal => { r with localOut := .unwritten }
  | .ts32ToNanos => { r with nanosOut := .unwritten }
  | .refidRender => { r with textOut := .unwritten }

/-- A command completes: its result registers are overwritten and STATUS = OK (10_state.md R31). -/
def complete (r : Results) (s : State) : State :=
  endCommand .ok { s with results := r }

/-- A command fails. "A failed command has exactly these effects: STATUS is written; a FAULTS bit is set
for the two faults; its own result registers' `written` bits are cleared" (60_exceptions.md R208). The
FAULTS bit is given for the two faults only, and the result registers `r` are the ones that remain. -/
def failCommand (outcome : Status) (faultBit : Option (BitVec 8)) (r : Results) (s : State) : State :=
  let s := { s with results := r }
  endCommand outcome (match faultBit with
    | some b => raiseFault b s
    | none => s)

/-- `raise TruncatedPacket` (60_exceptions.md R201): no FAULTS bit. -/
def raiseTruncatedPacket (s : State) : State :=
  failCommand .truncatedPacket none (clearResults .decode s.results) s

/-- `raise IllegalCommand` (60_exceptions.md R202): no port changes and the word is not kept. -/
def raiseIllegalCommand (s : State) : State :=
  failCommand .illegalCommand (some illegalCommandBit) s.results s

/-- `raise UnwrittenPort` in the command `i` (60_exceptions.md R203). -/
def raiseUnwrittenPort (i : Instr) (s : State) : State :=
  failCommand .unwrittenPort (some unwrittenPortBit) (clearResults i s.results) s

/-- RESET: "every piece of state to its value in the table of 10_state.md rule R39", the configuration
kept (70_reset_and_hazards.md R230). The host's run is no state of the block: the index is advanced by
the step (10_state.md R45), and the run-level fault record stays (60_exceptions.md R209; log 8). -/
def resetBlock (s : State) : State :=
  { s with operands := .reset, results := .reset, status := .none, faults := 0 }

/-- One action of the program is taken: the host index advances by 1 (10_state.md R45). -/
def advance (s : State) : State := { s with run := { s.run with h := s.run.h + 1 } }

/-- The outcome with its next state changed by `f`; a fault or a refusal stays. -/
def mapNext (f : State → State) : Outcome → Outcome
  | .next s => .next (f s)
  | .fault r => .fault r
  | .refused r => .refused r

end Sys2Proof.Machine
end

