-- ==== Sys2Proof/Machine/Operands.lean ====
section
/-! DEFINITION. Reading and writing ports: `require_written` (60_exceptions.md R203) for a command's
operands, and the port accesses of the host's WRITE and READ (10_state.md R40, R42). -/

namespace Sys2Proof.Machine

/-- `require_written(P)` of the command `i` (60_exceptions.md R203): go on with the port's value, or end
the command with UNWRITTEN_PORT. -/
def requireWritten {α : Type} (i : Instr) (p : Slot α) (s : State) (k : α → State) : State :=
  match p with
  | .unwritten => raiseUnwrittenPort i s
  | .holds v => k v

/-- What a host READ of a port finds (10_state.md R42): the value, or a clear `written` bit. STATUS,
FAULTS and the configuration always have a value. CMD is write only: there is no READ of it (R44). -/
def portSlot (s : State) : Port → Option (Slot PortValue)
  | .cmd => none
  | .status => some (.holds (.byte (statusCode s.status)))
  | .faults => some (.holds (.byte (faultsRead s.faults)))
  | .configU => some (.holds (.nat s.config.unitsPerSecond))
  | .configE => some (.holds (.s64 (BitVec.ofInt 64 s.config.epochOffset)))
  | .pktIn => some (s.operands.pktIn.map .packet)
  | .bufIn => some (s.operands.bufIn.map .bytes)
  | .offIn => some (s.operands.offIn.map .nat)
  | .ts64In => some (s.operands.ts64In.map .ts64)
  | .ts32In => some (s.operands.ts32In.map .ts32)
  | .byteIn => some (s.operands.byteIn.map .byte)
  | .fldIn => some (s.operands.fldIn.map .fields)
  | .stratumIn => some (s.operands.stratumIn.map .byte)
  | .refidIn => some (s.operands.refidIn.map .refId)
  | .frameOut => some (s.results.frameOut.map .frame)
  | .pktOut => some (s.results.pktOut.map .packet)
  | .offOut => some (s.results.offOut.map .nat)
  | .localOut => some (s.results.localOut.map .s64)
  | .nanosOut => some (s.results.nanosOut.map .u64)
  | .flagsOut => some (s.results.flagsOut.map .byte)
  | .fldOut => some (s.results.fldOut.map .fields)
  | .textOut => some (s.results.textOut.map .bytes)

/-- The `written` bit of a port (10_state.md R28); CMD has none. -/
def portWritten (s : State) (p : Port) : Bool :=
  match portSlot s p with
  | some slot => slot.written
  | none => false

/-- The operand ports after a WRITE of `v` to the port `p`, "with `v` of the port's type"
(10_state.md R40); none for any other port or type (R44). -/
def writeOperand (o : Operands) : Port → PortValue → Option Operands
  | .pktIn, .packet v => some { o with pktIn := .holds v }
  | .bufIn, .bytes v => some { o with bufIn := .holds v }
  | .offIn, .nat v => some { o with offIn := .holds v }
  | .ts64In, .ts64 v => some { o with ts64In := .holds v }
  | .ts32In, .ts32 v => some { o with ts32In := .holds v }
  | .byteIn, .byte v => some { o with byteIn := .holds v }
  | .fldIn, .fields v => some { o with fldIn := .holds v }
  | .stratumIn, .byte v => some { o with stratumIn := .holds v }
  | .refidIn, .refId v => some { o with refidIn := .holds v }
  | _, _ => none

end Sys2Proof.Machine
end

