-- ==== Sys2Proof/Machine/Bitpack.lean ====
section
/-! DEFINITION. The big-endian bit-packing family (40_bitpack.md): the serialisation primitives R100 to
R106, and FLAGS_PACK and FLAGS_UNPACK (R110, R111). -/

namespace Sys2Proof.Machine

/-- `put_be16` (40_bitpack.md R100). -/
def putBe16 (v : BitVec 16) : List Byte := [v.extractLsb' 8 8, v.extractLsb' 0 8]

/-- `put_be32` (40_bitpack.md R100). -/
def putBe32 (v : BitVec 32) : List Byte :=
  [v.extractLsb' 24 8, v.extractLsb' 16 8, v.extractLsb' 8 8, v.extractLsb' 0 8]

/-- `get_be16` (40_bitpack.md R101). -/
def getBe16 (b0 b1 : Byte) : BitVec 16 := b0 ++ b1

/-- `get_be32` (40_bitpack.md R101). -/
def getBe32 (b0 b1 b2 b3 : Byte) : BitVec 32 := b0 ++ b1 ++ b2 ++ b3

/-- `put_ts32` (40_bitpack.md R102). -/
def putTs32 (t : NtpTimestamp32) : List Byte := putBe16 t.seconds ++ putBe16 t.fraction

/-- `get_ts32` (40_bitpack.md R102). -/
def getTs32 (b0 b1 b2 b3 : Byte) : NtpTimestamp32 :=
  { seconds := getBe16 b0 b1, fraction := getBe16 b2 b3 }

/-- `put_ts64` (40_bitpack.md R103). -/
def putTs64 (t : NtpTimestamp64) : List Byte := putBe32 t.seconds ++ putBe32 t.fraction

/-- `get_ts64` (40_bitpack.md R103). -/
def getTs64 (b0 b1 b2 b3 b4 b5 b6 b7 : Byte) : NtpTimestamp64 :=
  { seconds := getBe32 b0 b1 b2 b3, fraction := getBe32 b4 b5 b6 b7 }

/-- `put_s8`: the two's-complement pattern, bit for bit (40_bitpack.md R104). An `s8` is held as that
pattern and read by `BitVec.toInt` (00_scope.md R14). -/
def putS8 (p : BitVec 8) : Byte := p

/-- `get_s8`: the same 8 bits, read as two's complement (40_bitpack.md R104). -/
def getS8 (b : Byte) : BitVec 8 := b

/-- `pack_flags` (40_bitpack.md R105). -/
def packFlags (f : FlagFields) : Byte :=
  (f.leapIndicator.setWidth 8 <<< 6) ||| (f.version.setWidth 8 <<< 3) ||| f.mode.setWidth 8

/-- `unpack_flags` (40_bitpack.md R106). -/
def unpackFlags (b : Byte) : FlagFields :=
  { leapIndicator := ((b >>> 6) &&& 0x03#8).setWidth 2
    version := ((b >>> 3) &&& 0x07#8).setWidth 3
    mode := (b &&& 0x07#8).setWidth 3 }

/-- FLAGS_PACK (40_bitpack.md R110). -/
def execFlagsPack (s : State) : Outcome :=
  underConfig s <|
    requireWritten .flagsPack s.operands.fldIn s fun f =>
      complete { s.results with flagsOut := .holds (packFlags f) } s

/-- FLAGS_UNPACK (40_bitpack.md R111). -/
def execFlagsUnpack (s : State) : Outcome :=
  underConfig s <|
    requireWritten .flagsUnpack s.operands.byteIn s fun b =>
      complete { s.results with fldOut := .holds (unpackFlags b) } s

end Sys2Proof.Machine
end

