-- ==== Sys2Proof/Machine/Framer.lean ====
section
/-! DEFINITION. The packet framer (41_framer.md): ENCODE, DECODE and BUILD_REQUEST over the 48-byte
frame of 30_encoding.md R75. -/

namespace Sys2Proof.Machine

/-- The bytes of `encode_frame(p)`, offset 0 first (41_framer.md R130). -/
def encodeBytes (p : NtpPacket) : List Byte :=
  [packFlags ⟨p.leapIndicator, p.version, p.mode⟩, p.stratum, p.poll, putS8 p.precision]
    ++ putTs32 p.rootDelay
    ++ putTs32 p.rootDispersion
    ++ [p.referenceId[0], p.referenceId[1], p.referenceId[2], p.referenceId[3]]
    ++ putTs64 p.reference
    ++ putTs64 p.origin
    ++ putTs64 p.receive
    ++ putTs64 p.transmit

/-- "`Encode(p)` always yields exactly 48 bytes for any field values" (41_framer.md R135). -/
theorem encodeBytes_length (p : NtpPacket) : (encodeBytes p).length = frameLen := rfl

/-- `encode_frame` (41_framer.md R130). -/
def encodeFrame (p : NtpPacket) : Frame :=
  ⟨(encodeBytes p).toArray, encodeBytes_length p⟩

/-- `parse_frame` (41_framer.md R133). -/
def parseFrame (b : Frame) : NtpPacket :=
  let fl := unpackFlags b[0]
  { leapIndicator := fl.leapIndicator
    version := fl.version
    mode := fl.mode
    stratum := b[1]
    poll := b[2]
    precision := getS8 b[3]
    rootDelay := getTs32 b[4] b[5] b[6] b[7]
    rootDispersion := getTs32 b[8] b[9] b[10] b[11]
    referenceId := #v[b[12], b[13], b[14], b[15]]
    reference := getTs64 b[16] b[17] b[18] b[19] b[20] b[21] b[22] b[23]
    origin := getTs64 b[24] b[25] b[26] b[27] b[28] b[29] b[30] b[31]
    receive := getTs64 b[32] b[33] b[34] b[35] b[36] b[37] b[38] b[39]
    transmit := getTs64 b[40] b[41] b[42] b[43] b[44] b[45] b[46] b[47] }

/-- The minimal client request `q` (41_framer.md R134). -/
def requestPacket : NtpPacket :=
  { leapIndicator := 0, version := 4, mode := 3, stratum := 0, poll := 0, precision := 0
    rootDelay := ⟨0, 0⟩, rootDispersion := ⟨0, 0⟩, referenceId := #v[0, 0, 0, 0]
    reference := ⟨0, 0⟩, origin := ⟨0, 0⟩, receive := ⟨0, 0⟩, transmit := ⟨0, 0⟩ }

/-- ENCODE (41_framer.md R130). -/
def execEncode (s : State) : Outcome :=
  underConfig s <|
    requireWritten .encode s.operands.pktIn s fun p =>
      complete (storeFrame (encodeFrame p) s.results) s

/-- DECODE (41_framer.md R131): the length check of R132 in unbounded arithmetic, before any read. -/
def execDecode (s : State) : Outcome :=
  underConfig s <|
    requireWritten .decode s.operands.bufIn s fun buf =>
      requireWritten .decode s.operands.offIn s fun o =>
        if h : o + frameLen ≤ buf.length then
          complete { s.results with
            pktOut := .holds (parseFrame (readFrame buf o h)), offOut := .holds (o + frameLen) } s
        else raiseTruncatedPacket s

/-- BUILD_REQUEST (41_framer.md R134): it reads no operand port. -/
def execBuildRequest (s : State) : Outcome :=
  underConfig s <| complete (storeFrame (encodeFrame requestPacket) s.results) s

end Sys2Proof.Machine
end

