-- ==== Sys2Proof/Machine/Refid.lean ====
section
/-! DEFINITION. Reference-ID rendering (43_refid.md): REFID_RENDER and its two forms. Characters are
bytes of the ASCII code (00_scope.md R16). -/

namespace Sys2Proof.Machine

/-- `render_text`: the bytes before the first 0x00, copied verbatim, or all four (43_refid.md R181). -/
def renderText (r : RefId) : List Byte := r.toList.takeWhile fun b => b != 0

/-- The ASCII digit of a number below 10, 0x30..0x39 (00_scope.md R16). -/
def asciiDigit (n : Nat) : Byte := BitVec.ofNat 8 (0x30 + n)

/-- `dec(x)`: the decimal numeral of `toNat(x)` with no leading zeros, "0" for zero (43_refid.md R182). -/
def decimal (x : Byte) : List Byte :=
  let n := x.toNat
  if n < 10 then [asciiDigit n]
  else if n < 100 then [asciiDigit (n / 10), asciiDigit (n % 10)]
  else [asciiDigit (n / 100), asciiDigit (n / 10 % 10), asciiDigit (n % 10)]

/-- The character "." is 0x2E (00_scope.md R16, 43_refid.md R182). -/
def asciiDot : Byte := 0x2E

/-- `render_ipv4`: the four numerals joined by dots, `r[0]` first (43_refid.md R182). -/
def renderIpv4 (r : RefId) : List Byte :=
  decimal r[0] ++ [asciiDot] ++ decimal r[1] ++ [asciiDot] ++ decimal r[2] ++ [asciiDot]
    ++ decimal r[3]

/-- The rendering chosen by the stratum: text for stratum 1, the address for every other, stratum 0
included (43_refid.md R180). -/
def render (stratum : Byte) (r : RefId) : List Byte :=
  if stratum = 1 then renderText r else renderIpv4 r

/-- REFID_RENDER (43_refid.md R180). -/
def execRefidRender (s : State) : Outcome :=
  underConfig s <|
    requireWritten .refidRender s.operands.stratumIn s fun stratum =>
      requireWritten .refidRender s.operands.refidIn s fun r =>
        complete { s.results with textOut := .holds (render stratum r) } s

end Sys2Proof.Machine
end

