-- ==== Sys2Proof/Machine/Timestamp.lean ====
section
/-! DEFINITION. The timestamp converters (42_timestamp.md): TS64_TO_LOCAL and TS32_TO_NANOS, exact
integer arithmetic with one rounding toward zero (R160). -/

namespace Sys2Proof.Machine

/-- `r = E + s * U + (f * U) div 2^32`, exact (42_timestamp.md R161). -/
def localTime (c : Config) (t : NtpTimestamp64) : Int :=
  let s := t.seconds.toNat
  let f := t.fraction.toNat
  c.epochOffset + (s * c.unitsPerSecond : Nat) + (f * c.unitsPerSecond / 2 ^ 32 : Nat)

/-- `to_local`: `r as s64`, in range for an admitted configuration (42_timestamp.md R161, 00_scope.md
R10). -/
def toLocal (c : Config) (t : NtpTimestamp64) : BitVec 64 := BitVec.ofInt 64 (localTime c t)

/-- `s * 10^9 + (f * 10^9) div 2^16`, exact (42_timestamp.md R162). -/
def nanos (d : NtpTimestamp32) : Nat :=
  d.seconds.toNat * 10 ^ 9 + d.fraction.toNat * 10 ^ 9 / 2 ^ 16

/-- `to_nanos` (42_timestamp.md R162): "the largest result, 65,535,999,984,741, needs 47 bits". -/
def toNanos (d : NtpTimestamp32) : BitVec 64 := BitVec.ofNat 64 (nanos d)

/-- TS64_TO_LOCAL (42_timestamp.md R161). -/
def execTs64ToLocal (s : State) : Outcome :=
  underConfig s <|
    requireWritten .ts64ToLocal s.operands.ts64In s fun t =>
      complete { s.results with localOut := .holds (toLocal s.config t) } s

/-- TS32_TO_NANOS (42_timestamp.md R162). -/
def execTs32ToNanos (s : State) : Outcome :=
  underConfig s <|
    requireWritten .ts32ToNanos s.operands.ts32In s fun d =>
      complete { s.results with nanosOut := .holds (toNanos d) } s

end Sys2Proof.Machine
end

