-- ==== Sys2Proof/Machine/Dispatch.lean ====
section
/-! DEFINITION. The meaning of each instruction, one arm per constructor of Instr. -/

namespace Sys2Proof.Machine

def exec (i : Instr) (s : State) : Host.Outcome State Fault Refusal :=
  match i with
  | .encode => Sys2Proof.Machine.execEncode s
  | .decode => Sys2Proof.Machine.execDecode s
  | .buildRequest => Sys2Proof.Machine.execBuildRequest s
  | .flagsPack => Sys2Proof.Machine.execFlagsPack s
  | .flagsUnpack => Sys2Proof.Machine.execFlagsUnpack s
  | .ts64ToLocal => Sys2Proof.Machine.execTs64ToLocal s
  | .ts32ToNanos => Sys2Proof.Machine.execTs32ToNanos s
  | .refidRender => Sys2Proof.Machine.execRefidRender s

end Sys2Proof.Machine
end

