-- ==== Sys2Proof/Machine/HostActions.lean ====
section
/-! DEFINITION. The host actions WRITE, ISSUE, READ and RESET (10_state.md R40 to R44), one action of a
host program (R45), and how a program comes to the machine (70_reset_and_hazards.md R231, R233). -/

namespace Sys2Proof.Machine

/-- ISSUE(cmd): decode the command word (30_encoding.md R72) and run the command to completion as one
atomic step (10_state.md R41); a word that names no operation raises `IllegalCommand` before any other
check (60_exceptions.md R202, R206). -/
def issueCommand (w : Byte) (s : State) : Outcome :=
  match decode w with
  | .ok i => exec i s
  | .error _ => underConfig s (raiseIllegalCommand s)

/-- WRITE(port, v) (10_state.md R40). A write of a u8 to CMD is an ISSUE (R41); a write to any other port
outside 0x10..0x18, to no port, or of another type has no move (R44). -/
def writePort (n : Byte) (v : PortValue) (s : State) : Outcome :=
  match portOfNumber n with
  | none => .refused .noMove
  | some .cmd =>
    match v with
    | .byte w => issueCommand w s
    | _ => .refused .noMove
  | some p =>
    match writeOperand s.operands p v with
    | some o => underConfig s { s with operands := o }
    | none => .refused .noMove

/-- READ(port) (10_state.md R42): the value goes to the host and the block does not change; a port whose
`written` bit is clear raises `UnwrittenPort`, which sets FAULTS bit 1, returns no value and leaves STATUS
as it is (60_exceptions.md R203). A READ of CMD or of no port has no move (R44). -/
def readPort (n : Byte) (s : State) : Outcome :=
  match (portOfNumber n).bind (portSlot s) with
  | none => .refused .noMove
  | some (.holds v) => underConfig s { s with run := { s.run with readValue := some v } }
  | some .unwritten =>
    underConfig s (raiseFault unwrittenPortBit { s with run := { s.run with readValue := none } })

/-- One host action (10_state.md R40 to R43), without the advance of the host index. -/
def act (a : HostAction) (s : State) : Outcome :=
  match a with
  | .write n v => writePort n v s
  | .issue w => issueCommand w s
  | .read n => readPort n s
  | .reset => underConfig s (resetBlock s)

/-- The action the host takes next, `program[h]` (10_state.md R45); none when the run has ended
(70_reset_and_hazards.md R239). -/
def nextAction (s : State) : Option HostAction := s.run.program[s.run.h]?

/-- One step of the run: the configuration is refused before any action (60_exceptions.md R205); then
the action at `h` is taken and `h` advances by 1, "whether it succeeds or faults" (10_state.md R45). With no
action left the run has ended (70_reset_and_hazards.md R239), and there is nothing to step. -/
def runNextAction (s : State) : Outcome :=
  if admitted s.config then
    match nextAction s with
    | some a => mapNext advance (act a s)
    | none => .refused .runEnded
  else .refused .configurationRefused

/-- Whether the spec has a move for a host action (10_state.md R40 to R44). -/
def HostAction.allowed : HostAction → Bool
  | .write n v =>
    match portOfNumber n with
    | none => false
    | some .cmd => match v with
      | .byte _ => true
      | _ => false
    | some p => (writeOperand .reset p v).isSome
  | .issue _ => true
  | .read n =>
    match portOfNumber n with
    | none => false
    | some p => p ≠ .cmd
  | .reset => true

/-- A new instance for the pair `(U, E)`, in the reset state, or no instance (60_exceptions.md R205,
70_reset_and_hazards.md R233 items 1 to 3). -/
def instantiate (c : Config) : Outcome := underConfig (.resetWith c) (.resetWith c)

/-- The host takes up the program `p` at its first action (10_state.md R45, 70_reset_and_hazards.md
R231). -/
def startProgram (p : List HostAction) (s : State) : State := { s with run := .start p }

/-- A host that reacts to what it read chooses its next actions (10_state.md R45): they follow the ones
taken so far, in the same run. -/
def continueProgram (p : List HostAction) (s : State) : State :=
  { s with run := { s.run with program := s.run.program ++ p } }

/-- The state with `a` as the action the next step takes; the actions before and after it stay. An index
past the end of the program is moved to its end, so that the action stands at it. -/
def placeAction (a : HostAction) (s : State) : State :=
  { s with run := { s.run with
      program := s.run.program.take s.run.h ++ a :: s.run.program.drop (s.run.h + 1)
      h := min s.run.h s.run.program.length } }

end Sys2Proof.Machine
end

