-- ==== Sys2Proof/Machine/Step.lean ====
section
/-! DEFINITION. One step of the machine: one host action (70_reset_and_hazards.md R237). -/

namespace Sys2Proof.Machine

/-- One step: the host action at the host index (10_state.md R45). -/
def step (s : State) : Host.Outcome State Fault Refusal := runNextAction s

/-- `s` with the command word `w` (bit 0 the least significant, one byte: 30_encoding.md R74) as the
word the next step issues. The block fetches nothing (10_state.md R38): the word comes to it as the
host's ISSUE, so that action is placed at the host index (log 2). -/
def State.withFetchWord (s : State) (nbits w : Nat) : State :=
  placeAction (.issue (BitVec.ofNat 8 (w % 2 ^ nbits))) s

end Sys2Proof.Machine
end

