-- ==== Sys2Proof/Machine/Assembler.lean ====
section
/-! DEFINITION. The host program notation: the assembly forms and literals of 30_encoding.md R83, and the
pseudo-instructions of R84. What a line leaves open in its layout (blanks, the case of its keywords) is
log 14. -/

namespace Sys2Proof.Machine

/-- A pseudo-instruction (30_encoding.md R84). -/
inductive Pseudo where
  | encode (p : NtpPacket)
  | decode (bytes : List Byte) (o : Nat)
  | decodeAt (o : Nat)
  | pack (f : FlagFields)
  | unpack (b : Byte)
  | toLocal (t : NtpTimestamp64)
  | toNanos (d : NtpTimestamp32)
  | render (stratum : Byte) (r : RefId)
deriving DecidableEq, Repr

/-- `set <port>, <value>`: WRITE (30_encoding.md R83). -/
def setPort (p : Port) (v : PortValue) : HostAction := .write (portNumber p) v

/-- A mnemonic: ISSUE of that command word (30_encoding.md R83). -/
def issueOf (i : Instr) : HostAction := .issue (Sys2Proof.encode i)

/-- "Each pseudo-instruction is exactly its expansion, host action by host action" (30_encoding.md R84). -/
def expandPseudo : Pseudo → List HostAction
  | .encode p => [setPort .pktIn (.packet p), issueOf .encode]
  | .decode b o => [setPort .bufIn (.bytes b), setPort .offIn (.nat o), issueOf .decode]
  | .decodeAt o => [setPort .offIn (.nat o), issueOf .decode]
  | .pack f => [setPort .fldIn (.fields f), issueOf .flagsPack]
  | .unpack b => [setPort .byteIn (.byte b), issueOf .flagsUnpack]
  | .toLocal t => [setPort .ts64In (.ts64 t), issueOf .ts64ToLocal]
  | .toNanos d => [setPort .ts32In (.ts32 d), issueOf .ts32ToNanos]
  | .render st r => [setPort .stratumIn (.byte st), setPort .refidIn (.refId r), issueOf .refidRender]

/-- Why a line is no host program line: "an assembly error. It produces no host action" (30_encoding.md
R83). -/
inductive AsmError where
  /-- the line has none of the forms of R83 and R84. -/
  | malformed
  /-- a name is no mnemonic, port or keyword. -/
  | unknownName
  /-- "A literal out of its field's range is an assembly error" (R83). -/
  | outOfRange
  /-- `set` of a port the host cannot WRITE (10_state.md R40). -/
  | notWritable
deriving DecidableEq, Repr

/-- A lexical unit of a line (30_encoding.md R83). -/
inductive Token where
  | word (cs : List Char)
  | int (n : Int)
  | bytes (bs : List Byte)
  | punct (c : Char)
deriving DecidableEq, Repr

/-- What the lexer is in the middle of; characters read so far stand last first. -/
inductive LexMode where
  | plain
  | word (acc : List Char)
  | hexBytes (acc : List Char)
  | comment
  | bad
deriving DecidableEq, Repr

/-- The value of a hexadecimal digit. -/
def hexDigit (c : Char) : Option Nat :=
  let n := c.toNat
  if 48 ≤ n ∧ n ≤ 57 then some (n - 48)
  else if 97 ≤ n ∧ n ≤ 102 then some (n - 87)
  else if 65 ≤ n ∧ n ≤ 70 then some (n - 55)
  else none

/-- The value of a numeral in a base of at most 16, most significant digit first. -/
def numeral (base : Nat) (cs : List Char) : Option Nat :=
  cs.foldl (fun acc c => do
    let v ← acc
    let d ← hexDigit c
    if d < base then some (v * base + d) else none) (some 0)

/-- "integers in decimal or `0x` hex" (30_encoding.md R83), as a natural number. -/
def natLiteral : List Char → Option Nat
  | [] => none
  | ['0', 'x'] => none
  | '0' :: 'x' :: ds => numeral 16 ds
  | ds => numeral 10 ds

/-- An integer literal, with a minus sign where the field is signed (the packets of 95_test_vectors.md
write `precision=-20`). -/
def intLiteral : List Char → Option Int
  | '-' :: ds => (natLiteral ds).map fun n => -(n : Int)
  | ds => (natLiteral ds).map fun n => (n : Int)

/-- A blank inside a line. -/
def isBlank (c : Char) : Bool := c == ' ' || c == '\t' || c == '\n' || c == '\r'

/-- The bytes of `hex"e3 00 ..."` (30_encoding.md R83): two hexadecimal digits a byte, blanks between. -/
def hexBytesLiteral : List Char → Option (List Byte)
  | [] => some []
  | [c] => if isBlank c then some [] else none
  | c :: d :: cs =>
    if isBlank c then hexBytesLiteral (d :: cs)
    else do
      let hi ← hexDigit c
      let lo ← hexDigit d
      let bs ← hexBytesLiteral cs
      some (BitVec.ofNat 8 (16 * hi + lo) :: bs)

/-- A character of a name, keyword or number. -/
def isWordChar (c : Char) : Bool :=
  c.isAlphanum || c == '_' || c == '.' || c == '-'

/-- The braces of a record literal. -/
def openBrace : Char := Char.ofNat 0x7B

/-- The braces of a record literal. -/
def closeBrace : Char := Char.ofNat 0x7D

/-- A punctuation mark of the literals of 30_encoding.md R83. -/
def isPunct (c : Char) : Bool :=
  c == ',' || c == '=' || c == '[' || c == ']' || c == openBrace || c == closeBrace

/-- A finished word as a token: a number where it starts like one, else a name. -/
def wordToken (cs : List Char) : Option Token :=
  match cs with
  | [] => none
  | c :: _ =>
    if c.isDigit || c == '-' then (intLiteral cs).map .int else some (.word cs)

/-- One character of a line, outside words: "text after a semicolon is a comment" (30_encoding.md R83). -/
def lexPlain (ts : List Token) (c : Char) : List Token × LexMode :=
  if isBlank c then (ts, .plain)
  else if c == ';' then (ts, .comment)
  else if isPunct c then (.punct c :: ts, .plain)
  else if isWordChar c then (ts, .word [c])
  else (ts, .bad)

/-- One character of a line, in any mode; the tokens so far stand last first. -/
def lexChar (st : List Token × LexMode) (c : Char) : List Token × LexMode :=
  match st with
  | (ts, .plain) => lexPlain ts c
  | (ts, .word acc) =>
    if isWordChar c then (ts, .word (c :: acc))
    else if c == '"' && acc == ['x', 'e', 'h'] then (ts, .hexBytes [])
    else match wordToken acc.reverse with
      | some t => lexPlain (t :: ts) c
      | none => (ts, .bad)
  | (ts, .hexBytes acc) =>
    if c == '"' then
      match hexBytesLiteral acc.reverse with
      | some bs => (.bytes bs :: ts, .plain)
      | none => (ts, .bad)
    else (ts, .hexBytes (c :: acc))
  | (ts, .comment) => (ts, .comment)
  | (ts, .bad) => (ts, .bad)

/-- The tokens of a line, or an assembly error. -/
def lexLine (cs : List Char) : Except AsmError (List Token) :=
  match cs.foldl lexChar ([], .plain) with
  | (ts, .plain) => .ok ts.reverse
  | (ts, .comment) => .ok ts.reverse
  | (ts, .word acc) =>
    match wordToken acc.reverse with
    | some t => .ok (t :: ts).reverse
    | none => .error .malformed
  | (_, .hexBytes _) => .error .malformed
  | (_, .bad) => .error .malformed

/-- A reader of one literal from the front of a line's tokens: the value and the tokens after it. -/
abbrev Reader (α : Type) := List Token → Except AsmError (α × List Token)

/-- A punctuation mark. -/
def readPunct (c : Char) : Reader Unit
  | .punct d :: ts => if c = d then .ok ((), ts) else .error .malformed
  | _ => .error .malformed

/-- An integer literal in a field's range (30_encoding.md R83). -/
def readInt (lo hi : Int) : Reader Int
  | .int n :: ts => if lo ≤ n ∧ n ≤ hi then .ok (n, ts) else .error .outOfRange
  | _ => .error .malformed

/-- An unsigned field of `n` bits. -/
def readUnsigned (n : Nat) : Reader (BitVec n) := fun ts => do
  let (v, ts) ← readInt 0 (2 ^ n - 1) ts
  .ok (BitVec.ofInt n v, ts)

/-- A two's-complement field of 8 bits (`precision`). -/
def readSigned8 : Reader (BitVec 8) := fun ts => do
  let (v, ts) ← readInt (-128) 127 ts
  .ok (BitVec.ofInt 8 v, ts)

/-- A `Nat` literal, with no upper bound (00_scope.md R12). -/
def readNat : Reader Nat
  | .int n :: ts => if 0 ≤ n then .ok (n.toNat, ts) else .error .outOfRange
  | _ => .error .malformed

/-- A byte sequence literal (30_encoding.md R83). -/
def readBytes : Reader (List Byte)
  | .bytes bs :: ts => .ok (bs, ts)
  | _ => .error .malformed

/-- `<name>=<literal>`, one field of a record literal. -/
def readField {α : Type} (name : String) (r : Reader α) : Reader α
  | .word cs :: ts =>
    if cs = name.toList then do
      let (_, ts) ← readPunct '=' ts
      r ts
    else .error .malformed
  | _ => .error .malformed

/-- `, <name>=<literal>`, a further field of a record literal. -/
def readNextField {α : Type} (name : String) (r : Reader α) : Reader α := fun ts => do
  let (_, ts) ← readPunct ',' ts
  readField name r ts

/-- `, <literal>`, a further operand or element. -/
def readNext {α : Type} (r : Reader α) : Reader α := fun ts => do
  let (_, ts) ← readPunct ',' ts
  r ts

/-- A timestamp literal, its two fields `s` and `f` (30_encoding.md R83). -/
def readTimestamp (n : Nat) : Reader (BitVec n × BitVec n) := fun ts => do
  let (_, ts) ← readPunct openBrace ts
  let (s, ts) ← readField "s" (readUnsigned n) ts
  let (f, ts) ← readNextField "f" (readUnsigned n) ts
  let (_, ts) ← readPunct closeBrace ts
  .ok ((s, f), ts)

/-- A 64-bit timestamp literal. -/
def readTs64 : Reader NtpTimestamp64 := fun ts => do
  let (t, ts) ← readTimestamp 32 ts
  .ok (⟨t.1, t.2⟩, ts)

/-- A 32-bit timestamp literal. -/
def readTs32 : Reader NtpTimestamp32 := fun ts => do
  let (t, ts) ← readTimestamp 16 ts
  .ok (⟨t.1, t.2⟩, ts)

/-- The fields `li`, `vn` and `mode`, which open both the flag literal and the packet literal. -/
def readFlagFields : Reader FlagFields := fun ts => do
  let (_, ts) ← readPunct openBrace ts
  let (li, ts) ← readField "li" (readUnsigned 2) ts
  let (vn, ts) ← readNextField "vn" (readUnsigned 3) ts
  let (mode, ts) ← readNextField "mode" (readUnsigned 3) ts
  .ok (⟨li, vn, mode⟩, ts)

/-- A flag-field literal (30_encoding.md R83). -/
def readFlags : Reader FlagFields := fun ts => do
  let (f, ts) ← readFlagFields ts
  let (_, ts) ← readPunct closeBrace ts
  .ok (f, ts)

/-- A reference-ID literal `[b0,b1,b2,b3]` (30_encoding.md R83). -/
def readRefId : Reader RefId := fun ts => do
  let (_, ts) ← readPunct '[' ts
  let (b0, ts) ← readUnsigned 8 ts
  let (b1, ts) ← readNext (readUnsigned 8) ts
  let (b2, ts) ← readNext (readUnsigned 8) ts
  let (b3, ts) ← readNext (readUnsigned 8) ts
  let (_, ts) ← readPunct ']' ts
  .ok (#v[b0, b1, b2, b3], ts)

/-- A packet literal, its fields in the order of 30_encoding.md R83. -/
def readPacket : Reader NtpPacket := fun ts => do
  let (f, ts) ← readFlagFields ts
  let (stratum, ts) ← readNextField "stratum" (readUnsigned 8) ts
  let (poll, ts) ← readNextField "poll" (readUnsigned 8) ts
  let (precision, ts) ← readNextField "precision" readSigned8 ts
  let (rootDelay, ts) ← readNextField "rootDelay" readTs32 ts
  let (rootDispersion, ts) ← readNextField "rootDispersion" readTs32 ts
  let (referenceId, ts) ← readNextField "referenceId" readRefId ts
  let (reference, ts) ← readNextField "reference" readTs64 ts
  let (origin, ts) ← readNextField "origin" readTs64 ts
  let (receive, ts) ← readNextField "receive" readTs64 ts
  let (transmit, ts) ← readNextField "transmit" readTs64 ts
  let (_, ts) ← readPunct closeBrace ts
  .ok ({ leapIndicator := f.leapIndicator, version := f.version, mode := f.mode, stratum, poll,
         precision, rootDelay, rootDispersion, referenceId, reference, origin, receive, transmit }, ts)

/-- The literal reader with its value as a port value. -/
def readAs {α : Type} (r : Reader α) (f : α → PortValue) : Reader PortValue := fun ts => do
  let (v, ts) ← r ts
  .ok (f v, ts)

/-- The literal of a port's type (10_state.md R27); only the operand ports take one. -/
def readPortValue : Port → Reader PortValue
  | .pktIn => readAs readPacket .packet
  | .bufIn => readAs readBytes .bytes
  | .offIn => readAs readNat .nat
  | .ts64In => readAs readTs64 .ts64
  | .ts32In => readAs readTs32 .ts32
  | .byteIn => readAs (readUnsigned 8) .byte
  | .fldIn => readAs readFlags .fields
  | .stratumIn => readAs (readUnsigned 8) .byte
  | .refidIn => readAs readRefId .refId
  | _ => fun _ => .error .notWritable

/-- The port names of 10_state.md R27. -/
def portName : Port → String
  | .cmd => "CMD"
  | .status => "STATUS"
  | .faults => "FAULTS"
  | .configU => "CONFIG_U"
  | .configE => "CONFIG_E"
  | .pktIn => "PKT_IN"
  | .bufIn => "BUF_IN"
  | .offIn => "OFF_IN"
  | .ts64In => "TS64_IN"
  | .ts32In => "TS32_IN"
  | .byteIn => "BYTE_IN"
  | .fldIn => "FLD_IN"
  | .stratumIn => "STRATUM_IN"
  | .refidIn => "REFID_IN"
  | .frameOut => "FRAME_OUT"
  | .pktOut => "PKT_OUT"
  | .offOut => "OFF_OUT"
  | .localOut => "LOCAL_OUT"
  | .nanosOut => "NANOS_OUT"
  | .flagsOut => "FLAGS_OUT"
  | .fldOut => "FLD_OUT"
  | .textOut => "TEXT_OUT"

/-- A port by its name. -/
def readPortName : Reader Port
  | .word cs :: ts =>
    match allPorts.find? fun p => (portName p).toList == cs with
    | some p => .ok (p, ts)
    | none => .error .unknownName
  | _ => .error .malformed

/-- A reader whose literal is the last of its line. -/
def readLast {α : Type} (r : Reader α) (ts : List Token) : Except AsmError α := do
  let (v, rest) ← r ts
  if rest.isEmpty then .ok v else .error .malformed

/-- The operands of a pseudo-instruction, by its name in lower case (30_encoding.md R84). -/
def readPseudo (name : String) : Reader Pseudo := fun ts =>
  match name with
  | "encode" => do
    let (p, ts) ← readPacket ts
    .ok (.encode p, ts)
  | "decode" => do
    let (b, ts) ← readBytes ts
    let (o, ts) ← readNext readNat ts
    .ok (.decode b o, ts)
  | "decode_at" => do
    let (o, ts) ← readNat ts
    .ok (.decodeAt o, ts)
  | "pack" => do
    let (li, ts) ← readUnsigned 2 ts
    let (vn, ts) ← readNext (readUnsigned 3) ts
    let (mode, ts) ← readNext (readUnsigned 3) ts
    .ok (.pack ⟨li, vn, mode⟩, ts)
  | "unpack" => do
    let (b, ts) ← readUnsigned 8 ts
    .ok (.unpack b, ts)
  | "to_local" => do
    let (t, ts) ← readTs64 ts
    .ok (.toLocal t, ts)
  | "to_nanos" => do
    let (d, ts) ← readTs32 ts
    .ok (.toNanos d, ts)
  | "render" => do
    let (st, ts) ← readUnsigned 8 ts
    let (r, ts) ← readNext readRefId ts
    .ok (.render st r, ts)
  | _ => .error .unknownName

/-- The operation a mnemonic names, given in lower case: "Mnemonics are case-insensitive" (30_encoding.md
R83). -/
def instrOfMnemonic (lower : List Char) : Option Instr :=
  Instr.all.find? fun i => i.mnemonic.toList.map Char.toLower == lower

/-- The host actions of a line whose first word, in lower case, is `lower`, with the tokens after it
(30_encoding.md R83, R84). -/
def lineActions (lower : List Char) (ts : List Token) : Except AsmError (List HostAction) :=
  if lower = ".cmd".toList then do
    let w ← readLast (readUnsigned 8) ts
    .ok [.issue w]
  else if lower = "set".toList then do
    let (p, ts) ← readPortName ts
    let v ← readLast (readNext (readPortValue p)) ts
    .ok [setPort p v]
  else if lower = "read".toList then do
    let p ← readLast readPortName ts
    .ok [.read (portNumber p)]
  else if lower = "reset".toList then
    if ts.isEmpty then .ok [.reset] else .error .malformed
  else if ts.isEmpty then
    match instrOfMnemonic lower with
    | some i => .ok [issueOf i]
    | none => .error .unknownName
  else do
    let q ← readLast (readPseudo (String.ofList lower)) ts
    .ok (expandPseudo q)

/-- The host actions of one line of a host program (30_encoding.md R83): none for an empty line or a
comment, or an assembly error. -/
def assembleLine (line : String) : Except AsmError (List HostAction) := do
  match ← lexLine line.toList with
  | [] => .ok []
  | .word cs :: ts => lineActions (cs.map Char.toLower) ts
  | _ => .error .malformed

/-- A host program from its lines, one action or pseudo-instruction a line (30_encoding.md R83). An
assembly error in any line is an error of the program. -/
def assemble (lines : List String) : Except AsmError (List HostAction) := do
  let parts ← lines.mapM assembleLine
  .ok parts.flatten

end Sys2Proof.Machine
end

