-- ==== Sys2Proof/Safety.lean ====
section
/-! DEFINITION. What counts as a safe run, in the terms claims use: the end and the success of a run
(60_exceptions.md R209, 70_reset_and_hazards.md R239), the invariant every step keeps, the host's loop
over back-to-back frames (41_framer.md R138), and the literals of the host program text (30_encoding.md
R83). -/

namespace Sys2Proof.Machine

/-- "A run of host program `P` ends when the host index `h` equals the length of `P`"
(70_reset_and_hazards.md R239). -/
def State.runEnded (s : State) : Bool := s.run.h == s.run.program.length

/-- "A run is successful when no action of the run raised a fault" (70_reset_and_hazards.md R239), as the
run-level fault record says (60_exceptions.md R209). TRUNCATED_PACKET does not count. -/
def State.runSuccessful (s : State) : Bool := s.runEnded && !s.run.faulted

/-- The value of a slot, where its `written` bit is set, has the property `P`. -/
def Slot.All {α : Type} (P : α → Prop) : Slot α → Prop
  | .unwritten => True
  | .holds v => P v

/-- What holds of every state a run of an admitted instance reaches, and what every step keeps. -/
structure State.Inv (s : State) : Prop where
  /-- "no command runs under" another configuration (60_exceptions.md R205). -/
  configAdmitted : admitted s.config = true
  /-- FAULTS bits 7:2 are reserved and zero (10_state.md R35). -/
  faultsReserved : s.faults &&& 0xFC#8 = 0#8
  /-- a run with a FAULTS bit set is recorded as faulted (60_exceptions.md R209). -/
  faultsRecorded : s.faults ≠ 0#8 → s.run.faulted = true
  /-- the host index is a position of the program or its end (10_state.md R45). -/
  hostIndex : s.run.h ≤ s.run.program.length
  /-- DECODE writes or clears PKT_OUT and OFF_OUT together (10_state.md R30, R31). -/
  decodeTogether : s.results.pktOut.written = s.results.offOut.written
  /-- OFF_OUT is an offset plus 48 (41_framer.md R138). -/
  offOutBound : s.results.offOut.All fun n => 48 ≤ n
  /-- LOCAL_OUT lies between `E` and the largest result (42_timestamp.md R161). -/
  localRange : s.results.localOut.All fun v =>
    s.config.epochOffset ≤ v.toInt ∧ v.toInt ≤ largestLocal s.config
  /-- NANOS_OUT is at most 65535999984741 (42_timestamp.md R162). -/
  nanosBound : s.results.nanosOut.All fun v => v.toNat ≤ 65535999984741
  /-- TEXT_OUT has length 0..4 or 7..15 (43_refid.md R183). -/
  textLength : s.results.textOut.All fun b =>
    b.length ≤ 4 ∨ (7 ≤ b.length ∧ b.length ≤ 15)
  /-- STATUS = NONE means no command since reset (10_state.md R34), so no result is written. -/
  statusNone : s.status = .none → s.results = .reset ∧ s.faults &&& illegalCommandBit = 0#8
  /-- after TRUNCATED_PACKET, DECODE's results are unreadable (60_exceptions.md R201). -/
  statusTruncated : s.status = .truncatedPacket →
    s.results.pktOut = .unwritten ∧ s.results.offOut = .unwritten
  /-- ILLEGAL_COMMAND has set FAULTS bit 0, which is sticky (60_exceptions.md R202, 10_state.md R35). -/
  statusIllegal : s.status = .illegalCommand → s.faults &&& illegalCommandBit = illegalCommandBit
  /-- UNWRITTEN_PORT has set FAULTS bit 1, which is sticky (60_exceptions.md R203, 10_state.md R35). -/
  statusUnwritten : s.status = .unwrittenPort → s.faults &&& unwrittenPortBit = unwrittenPortBit

/-- OFF_IN set to the previous OFF_OUT, as a host that decodes consecutive frames does (41_framer.md
R138). -/
def copyCursor (s : State) : State :=
  { s with operands := { s.operands with offIn := s.results.offOut } }

/-- `k` DECODE commands in a row, OFF_IN set to the previous OFF_OUT each time; the state after the last
one's cursor copy, or none where one of them does not end with STATUS = OK (41_framer.md R138). -/
def decodeFrames : Nat → State → Option State
  | 0, s => some s
  | k + 1, s =>
    match exec .decode s with
    | .next t => if t.status = .ok then decodeFrames k (copyCursor t) else none
    | .fault _ => none
    | .refused _ => none

/-- `ds` is the decimal numeral of `n` in ASCII (43_refid.md R182): digits 0x30..0x39, "no leading zeros
and with "0" for zero", most significant first. -/
def IsDecimalNumeral (ds : List Byte) (n : Nat) : Prop :=
  ds ≠ [] ∧ (∀ d ∈ ds, 0x30 ≤ d.toNat ∧ d.toNat ≤ 0x39) ∧
    (1 < ds.length → ds.head? ≠ some 0x30#8) ∧
    ds.foldl (fun v d => 10 * v + (d.toNat - 0x30)) 0 = n

/-- The state `UnwrittenPort` leaves when a command raises it (60_exceptions.md R203), `r` being its result
registers with the command's own `written` bits clear. -/
def AfterUnwrittenPort (r : Results) (s t : State) : Prop :=
  t = { s with results := r, status := .unwrittenPort, faults := s.faults ||| 0x02#8,
               run := { s.run with faulted := true } }

/-- The state a command that completes leaves (10_state.md R31), `r` being its result registers. -/
def AfterOk (r : Results) (s t : State) : Prop := t = { s with results := r, status := .ok }

/-- `c` is a digit of value `d`; a hexadecimal digit may be a small or a capital letter. -/
def IsDigit (base : Nat) (c : Char) (d : Nat) : Prop :=
  d < base ∧ ("0123456789abcdef".toList[d]? = some c ∨ "0123456789ABCDEF".toList[d]? = some c)

/-- `cs` is a numeral of `n`, most significant digit first. -/
def IsNumeral (base : Nat) (cs : List Char) (n : Nat) : Prop :=
  ∃ ds : List Nat, ds ≠ [] ∧ List.Forall₂ (IsDigit base) cs ds ∧
    n = ds.foldl (fun v d => base * v + d) 0

/-- "integers in decimal or `0x` hex" (30_encoding.md R83), with a minus sign for a negative one as in the
packets of 95_test_vectors.md (log 14). -/
def IsIntLiteral (cs : List Char) (v : Int) : Prop :=
  ∃ (body : List Char) (n : Nat),
    (IsNumeral 10 body n ∨ ∃ ds : List Char, body = '0' :: 'x' :: ds ∧ IsNumeral 16 ds n) ∧
    ((cs = body ∧ v = n) ∨ (cs = '-' :: body ∧ v = -(n : Int)))

/-- The value an unsigned field of `n` bits takes from an integer literal, or none where the literal is "out
of its field's range" (30_encoding.md R83). -/
def inField (n : Nat) (v : Int) : Option (BitVec n) :=
  if 0 ≤ v ∧ v < 2 ^ n then some (BitVec.ofInt n v) else none

/-- `cs` is a literal of an unsigned field of `n` bits, `x` its value, none where it is out of range. -/
def IsUnsignedLiteral (n : Nat) (cs : List Char) (x : Option (BitVec n)) : Prop :=
  ∃ v : Int, IsIntLiteral cs v ∧ x = inField n v

/-- `cs` is a literal of an `s8` field. -/
def IsSigned8Literal (cs : List Char) (x : Option (BitVec 8)) : Prop :=
  ∃ v : Int, IsIntLiteral cs v ∧ x = if -128 ≤ v ∧ v ≤ 127 then some (BitVec.ofInt 8 v) else none

/-- `cs` is a literal of a `Nat`, which has no upper bound (00_scope.md R12). -/
def IsNatLiteral (cs : List Char) (x : Option Nat) : Prop :=
  ∃ v : Int, IsIntLiteral cs v ∧ x = if 0 ≤ v then some v.toNat else none

/-- Two hexadecimal digits a byte, one blank between two bytes. -/
def IsHexText : List Char → List Byte → Prop
  | cs, [] => cs = []
  | cs, b :: bs => ∃ (c d : Char) (rest : List Char), cs = c :: d :: rest ∧
      IsDigit 16 c (b.toNat / 16) ∧ IsDigit 16 d (b.toNat % 16) ∧
      ((bs = [] ∧ rest = []) ∨ (bs ≠ [] ∧ ∃ tail, rest = ' ' :: tail ∧ IsHexText tail bs))

/-- "byte sequences as `hex"e3 00 ..."`" (30_encoding.md R83). -/
def IsBytesLiteral (cs : List Char) (bs : List Byte) : Prop :=
  ∃ text, IsHexText text bs ∧ cs = "hex\"".toList ++ text ++ "\"".toList

/-- Text in the braces of a record literal. -/
def braced (cs : List Char) : List Char := Char.ofNat 0x7B :: (cs ++ [Char.ofNat 0x7D])

/-- Timestamps, their fields `s` and `f` of `n` bits in braces (30_encoding.md R83). -/
def IsTimestampLiteral (n : Nat) (cs : List Char) (x : Option (BitVec n × BitVec n)) : Prop :=
  ∃ (s f : List Char) (xs xf : Option (BitVec n)),
    IsUnsignedLiteral n s xs ∧ IsUnsignedLiteral n f xf ∧
    cs = braced ("s=".toList ++ s ++ ", f=".toList ++ f) ∧
    x = (do some (← xs, ← xf))

/-- A timestamp of 64 bits. -/
def IsTs64Literal (cs : List Char) (x : Option NtpTimestamp64) : Prop :=
  ∃ y, IsTimestampLiteral 32 cs y ∧ x = y.map fun t => ⟨t.1, t.2⟩

/-- A timestamp of 32 bits. -/
def IsTs32Literal (cs : List Char) (x : Option NtpTimestamp32) : Prop :=
  ∃ y, IsTimestampLiteral 16 cs y ∧ x = y.map fun t => ⟨t.1, t.2⟩

/-- The fields `li`, `vn` and `mode`, which a flag literal and a packet literal begin with. -/
def IsFlagText (cs : List Char) (x : Option FlagFields) : Prop :=
  ∃ (li vn mode : List Char) (a : Option (BitVec 2)) (b c : Option (BitVec 3)),
    IsUnsignedLiteral 2 li a ∧ IsUnsignedLiteral 3 vn b ∧ IsUnsignedLiteral 3 mode c ∧
    cs = "li=".toList ++ li ++ ", vn=".toList ++ vn ++ ", mode=".toList ++ mode ∧
    x = (do some ⟨← a, ← b, ← c⟩)

/-- Flag fields, in braces (30_encoding.md R83). -/
def IsFlagsLiteral (cs : List Char) (x : Option FlagFields) : Prop :=
  ∃ text, IsFlagText text x ∧ cs = braced text

/-- "reference-IDs as `[b0,b1,b2,b3]`" (30_encoding.md R83). -/
def IsRefIdLiteral (cs : List Char) (x : Option RefId) : Prop :=
  ∃ (t0 t1 t2 t3 : List Char) (b0 b1 b2 b3 : Option Byte),
    IsUnsignedLiteral 8 t0 b0 ∧ IsUnsignedLiteral 8 t1 b1 ∧ IsUnsignedLiteral 8 t2 b2 ∧
    IsUnsignedLiteral 8 t3 b3 ∧
    cs = '[' :: t0 ++ ',' :: t1 ++ ',' :: t2 ++ ',' :: t3 ++ [']'] ∧
    x = (do some #v[← b0, ← b1, ← b2, ← b3])

/-- Packets, the thirteen fields in braces in the order of 30_encoding.md R83. -/
def IsPacketLiteral (cs : List Char) (x : Option NtpPacket) : Prop :=
  ∃ (flags stratum poll precision rootDelay rootDispersion referenceId : List Char)
    (reference origin receive transmit : List Char)
    (xf : Option FlagFields) (xs xp xn : Option Byte) (xd xe : Option NtpTimestamp32)
    (xi : Option RefId) (x1 x2 x3 x4 : Option NtpTimestamp64),
    IsFlagText flags xf ∧ IsUnsignedLiteral 8 stratum xs ∧ IsUnsignedLiteral 8 poll xp ∧
    IsSigned8Literal precision xn ∧ IsTs32Literal rootDelay xd ∧ IsTs32Literal rootDispersion xe ∧
    IsRefIdLiteral referenceId xi ∧ IsTs64Literal reference x1 ∧ IsTs64Literal origin x2 ∧
    IsTs64Literal receive x3 ∧ IsTs64Literal transmit x4 ∧
    cs = braced (flags ++ ", stratum=".toList ++ stratum ++ ", poll=".toList ++ poll
      ++ ", precision=".toList ++ precision ++ ", rootDelay=".toList ++ rootDelay
      ++ ", rootDispersion=".toList ++ rootDispersion ++ ", referenceId=".toList ++ referenceId
      ++ ", reference=".toList ++ reference ++ ", origin=".toList ++ origin
      ++ ", receive=".toList ++ receive ++ ", transmit=".toList ++ transmit) ∧
    x = (do
      let f ← xf
      some { leapIndicator := f.leapIndicator, version := f.version, mode := f.mode,
             stratum := ← xs, poll := ← xp, precision := ← xn, rootDelay := ← xd,
             rootDispersion := ← xe, referenceId := ← xi, reference := ← x1, origin := ← x2,
             receive := ← x3, transmit := ← x4 })

/-- A line that begins with `head` and goes on with `cs`. -/
def lineOf (head : String) (cs : List Char) : String := String.ofList (head.toList ++ cs)

/-- What a line of the host actions `x` assembles to; none stands for a literal out of its field's range,
"an assembly error. It produces no host action" (30_encoding.md R83). -/
def assembled : Option (List HostAction) → Except AsmError (List HostAction)
  | some actions => .ok actions
  | none => .error .outOfRange

end Sys2Proof.Machine
end

