-- ==== Sys2Proof/Certificates/Slice0/Obligations.lean ====
section
/-! DEFINITION. The statements for the provers, each formalising the rules of spec/ its docstring
cites. A statement about a command holds under every admitted configuration (00_scope.md R10); none
rests on the configuration `State.reset` holds (log 1). -/

open Sys2Proof Sys2Proof.Machine

/-- 10_state.md R39, 70_reset_and_hazards.md R231: what a new instance holds under the configuration
`c`. -/
def Obligations.ResetLeavesEveryPortUnwritten : Prop :=
  ∀ c : Config,
    portSlot (.resetWith c) .status = some (.holds (.byte 0)) ∧
    portSlot (.resetWith c) .faults = some (.holds (.byte 0)) ∧
    (State.resetWith c).faults = 0 ∧
    (State.resetWith c).config = c ∧
    (∀ p ∈ operandPorts ++ resultPorts, portSlot (.resetWith c) p = some .unwritten) ∧
    nextAction (.resetWith c) = none ∧
    State.reset = .resetWith Config.exampleA

/-- 10_state.md R27: the 22 rows of the port map, number by number; every other number names no port. -/
def Obligations.PortMapNumbersNameThePorts : Prop :=
  portOfNumber 0x00 = some .cmd ∧
  portOfNumber 0x01 = some .status ∧
  portOfNumber 0x02 = some .faults ∧
  portOfNumber 0x03 = some .configU ∧
  portOfNumber 0x04 = some .configE ∧
  portOfNumber 0x10 = some .pktIn ∧
  portOfNumber 0x11 = some .bufIn ∧
  portOfNumber 0x12 = some .offIn ∧
  portOfNumber 0x13 = some .ts64In ∧
  portOfNumber 0x14 = some .ts32In ∧
  portOfNumber 0x15 = some .byteIn ∧
  portOfNumber 0x16 = some .fldIn ∧
  portOfNumber 0x17 = some .stratumIn ∧
  portOfNumber 0x18 = some .refidIn ∧
  portOfNumber 0x20 = some .frameOut ∧
  portOfNumber 0x21 = some .pktOut ∧
  portOfNumber 0x22 = some .offOut ∧
  portOfNumber 0x23 = some .localOut ∧
  portOfNumber 0x24 = some .nanosOut ∧
  portOfNumber 0x25 = some .flagsOut ∧
  portOfNumber 0x26 = some .fldOut ∧
  portOfNumber 0x27 = some .textOut ∧
  ((List.range 256).filter fun n => (portOfNumber (BitVec.ofNat 8 n)).isSome) =
    [0x00, 0x01, 0x02, 0x03, 0x04, 0x10, 0x11, 0x12, 0x13, 0x14, 0x15, 0x16, 0x17, 0x18,
      0x20, 0x21, 0x22, 0x23, 0x24, 0x25, 0x26, 0x27] ∧
  (∀ p : Port, portOfNumber (portNumber p) = some p)

/-- 30_encoding.md R71: the operation map, and what it leaves reserved. -/
def Obligations.OperationMapSelectsTheCommands : Prop :=
  Sys2Proof.decode 0x01 = .ok .encode ∧ Sys2Proof.decode 0x02 = .ok .decode ∧
  Sys2Proof.decode 0x03 = .ok .buildRequest ∧ Sys2Proof.decode 0x04 = .ok .flagsPack ∧
  Sys2Proof.decode 0x05 = .ok .flagsUnpack ∧ Sys2Proof.decode 0x06 = .ok .ts64ToLocal ∧
  Sys2Proof.decode 0x07 = .ok .ts32ToNanos ∧ Sys2Proof.decode 0x08 = .ok .refidRender ∧
  (∀ w : Byte, w = 0x00 ∨ (0x09 ≤ w.toNat ∧ w.toNat ≤ 0x0F) →
    Sys2Proof.decode w = .error (.reservedOp w))

/-- 30_encoding.md R70, R71, R72: decoding a command word gives an operation exactly where the word is
that operation's, `0000` in bits 7:4 and its number in bits 3:0; so exactly 8 words select one. -/
def Obligations.DecodeInvertsTheCommandWord : Prop :=
  (∀ i : Instr, i.wellFormed = true →
    Sys2Proof.decode (Sys2Proof.encode i) = .ok i ∧
      (Sys2Proof.encode i).extractLsb' 4 4 = 0#4) ∧
  (∀ (w : Byte) (i : Instr), Sys2Proof.decode w = .ok i ↔ w = Sys2Proof.encode i) ∧
  (∀ w : Byte, w.extractLsb' 4 4 ≠ 0#4 → Sys2Proof.decode w = .error (.reservedBits w)) ∧
  ((List.range 256).filter fun n => (Sys2Proof.decode (BitVec.ofNat 8 n)).toOption.isSome).length = 8

/-- 10_state.md R41, R45: a step at an ISSUE, or at a WRITE of the word to CMD, is exec of the decoded
instruction and the advance of the host index; and the same of the word `withFetchWord` places. -/
def Obligations.StepRunsTheDecodedInstruction : Prop :=
  (∀ (s : State) (w : Byte) (i : Instr), admitted s.config = true →
    nextAction s = some (.issue w) ∨ nextAction s = some (.write 0x00 (.byte w)) →
    Sys2Proof.decode w = .ok i →
    i.wellFormed = true ∧ step s = mapNext advance (exec i s)) ∧
  (∀ (s : State) (w : Nat) (i : Instr), admitted s.config = true →
    decodeTableWord 8 w = some i →
    nextAction (s.withFetchWord 8 w) = some (.issue (BitVec.ofNat 8 w)) ∧
    step (s.withFetchWord 8 w) = mapNext advance (exec i (s.withFetchWord 8 w)))

/-- 60_exceptions.md R202, 30_encoding.md R73: every word that names no operation, issued by ISSUE or by a
WRITE of it to CMD (10_state.md R41), raises `IllegalCommand`: STATUS and FAULTS bit 0 are written, no port
changes, and the host goes on (R45), its run recorded as faulted (60_exceptions.md R209). -/
def Obligations.IllegalCommandChangesNoPort : Prop :=
  ∀ (s : State) (w : Byte), admitted s.config = true →
    nextAction s = some (.issue w) ∨ nextAction s = some (.write 0x00 (.byte w)) →
    w.extractLsb' 4 4 ≠ 0#4 ∨ w.toNat = 0 ∨ 9 ≤ w.toNat →
    step s = .next { s with
      status := .illegalCommand
      faults := s.faults ||| 0x01#8
      run := { s.run with h := s.run.h + 1, faulted := true } }

/-- 40_bitpack.md R110: FLAGS_PACK. -/
def Obligations.FlagsPackWritesTheFlagByte : Prop :=
  Sys2Proof.decode 0x04 = .ok .flagsPack ∧
  (∀ (s : State) (f : FlagFields), admitted s.config = true → s.operands.fldIn = .holds f →
    ∃ (b : Byte) (t : State), exec .flagsPack s = .next t ∧
      AfterOk { s.results with flagsOut := .holds b } s t ∧
      b = f.leapIndicator ++ f.version ++ f.mode ∧
      b.toNat = 64 * f.leapIndicator.toNat + 8 * f.version.toNat + f.mode.toNat) ∧
  (∀ s : State, admitted s.config = true → s.operands.fldIn = .unwritten →
    ∃ t : State, exec .flagsPack s = .next t ∧
      AfterUnwrittenPort { s.results with flagsOut := .unwritten } s t)

/-- 40_bitpack.md R111: FLAGS_UNPACK. -/
def Obligations.FlagsUnpackSplitsTheFlagByte : Prop :=
  Sys2Proof.decode 0x05 = .ok .flagsUnpack ∧
  (∀ (s : State) (b : Byte), admitted s.config = true → s.operands.byteIn = .holds b →
    ∃ (f : FlagFields) (t : State), exec .flagsUnpack s = .next t ∧
      AfterOk { s.results with fldOut := .holds f } s t ∧
      f.leapIndicator = b.extractLsb' 6 2 ∧ f.version = b.extractLsb' 3 3 ∧
      f.mode = b.extractLsb' 0 3) ∧
  (∀ s : State, admitted s.config = true → s.operands.byteIn = .unwritten →
    ∃ t : State, exec .flagsUnpack s = .next t ∧
      AfterUnwrittenPort { s.results with fldOut := .unwritten } s t)

/-- 41_framer.md R130, 30_encoding.md R75 to R80, 20_memory.md R50: ENCODE writes every byte of the
frame, each multi-byte field most significant byte first. -/
def Obligations.EncodeWritesTheWireFrame : Prop :=
  Sys2Proof.decode 0x01 = .ok .encode ∧
  (∀ (s : State) (p : NtpPacket), admitted s.config = true → s.operands.pktIn = .holds p →
    ∃ (f : Frame) (t : State), exec .encode s = .next t ∧
      AfterOk { s.results with frameOut := .holds f } s t ∧
      f[0] = p.leapIndicator ++ p.version ++ p.mode ∧
      f[1] = p.stratum ∧ f[2] = p.poll ∧ f[3] = p.precision ∧
      f[4] ++ f[5] = p.rootDelay.seconds ∧ f[6] ++ f[7] = p.rootDelay.fraction ∧
      f[8] ++ f[9] = p.rootDispersion.seconds ∧ f[10] ++ f[11] = p.rootDispersion.fraction ∧
      f[12] = p.referenceId[0] ∧ f[13] = p.referenceId[1] ∧
      f[14] = p.referenceId[2] ∧ f[15] = p.referenceId[3] ∧
      f[16] ++ f[17] ++ f[18] ++ f[19] = p.reference.seconds ∧
      f[20] ++ f[21] ++ f[22] ++ f[23] = p.reference.fraction ∧
      f[24] ++ f[25] ++ f[26] ++ f[27] = p.origin.seconds ∧
      f[28] ++ f[29] ++ f[30] ++ f[31] = p.origin.fraction ∧
      f[32] ++ f[33] ++ f[34] ++ f[35] = p.receive.seconds ∧
      f[36] ++ f[37] ++ f[38] ++ f[39] = p.receive.fraction ∧
      f[40] ++ f[41] ++ f[42] ++ f[43] = p.transmit.seconds ∧
      f[44] ++ f[45] ++ f[46] ++ f[47] = p.transmit.fraction) ∧
  (∀ s : State, admitted s.config = true → s.operands.pktIn = .unwritten →
    ∃ t : State, exec .encode s = .next t ∧
      AfterUnwrittenPort { s.results with frameOut := .unwritten } s t)

/-- 41_framer.md R131, R132, R133: DECODE of a buffer with 48 bytes at the offset. -/
def Obligations.DecodeParsesTheWireFrame : Prop :=
  Sys2Proof.decode 0x02 = .ok .decode ∧
  (∀ (s : State) (buf : List Byte) (o : Nat), admitted s.config = true →
    s.operands.bufIn = .holds buf → s.operands.offIn = .holds o → ∀ h : o + 48 ≤ buf.length,
    ∃ (p : NtpPacket) (t : State), exec .decode s = .next t ∧
      AfterOk { s.results with pktOut := .holds p, offOut := .holds (o + 48) } s t ∧
      p.leapIndicator = (buf[o]).extractLsb' 6 2 ∧ p.version = (buf[o]).extractLsb' 3 3 ∧
      p.mode = (buf[o]).extractLsb' 0 3 ∧
      p.stratum = buf[o + 1] ∧ p.poll = buf[o + 2] ∧
      p.precision.toInt = (if (buf[o + 3]).toNat < 128 then ((buf[o + 3]).toNat : Int)
        else ((buf[o + 3]).toNat : Int) - 256) ∧
      p.rootDelay = ⟨buf[o + 4] ++ buf[o + 5], buf[o + 6] ++ buf[o + 7]⟩ ∧
      p.rootDispersion = ⟨buf[o + 8] ++ buf[o + 9], buf[o + 10] ++ buf[o + 11]⟩ ∧
      p.referenceId = #v[buf[o + 12], buf[o + 13], buf[o + 14], buf[o + 15]] ∧
      p.reference = ⟨buf[o + 16] ++ buf[o + 17] ++ buf[o + 18] ++ buf[o + 19],
        buf[o + 20] ++ buf[o + 21] ++ buf[o + 22] ++ buf[o + 23]⟩ ∧
      p.origin = ⟨buf[o + 24] ++ buf[o + 25] ++ buf[o + 26] ++ buf[o + 27],
        buf[o + 28] ++ buf[o + 29] ++ buf[o + 30] ++ buf[o + 31]⟩ ∧
      p.receive = ⟨buf[o + 32] ++ buf[o + 33] ++ buf[o + 34] ++ buf[o + 35],
        buf[o + 36] ++ buf[o + 37] ++ buf[o + 38] ++ buf[o + 39]⟩ ∧
      p.transmit = ⟨buf[o + 40] ++ buf[o + 41] ++ buf[o + 42] ++ buf[o + 43],
        buf[o + 44] ++ buf[o + 45] ++ buf[o + 46] ++ buf[o + 47]⟩)

/-- 41_framer.md R131, R132, 60_exceptions.md R201: DECODE with fewer than 48 bytes at the offset, the
offset past the end included, with no wrap-around. -/
def Obligations.ShortBufferSignalsTruncatedPacket : Prop :=
  ∀ (s : State) (buf : List Byte) (o : Nat), admitted s.config = true →
    s.operands.bufIn = .holds buf → s.operands.offIn = .holds o → buf.length < o + 48 →
    exec .decode s = .next { s with
      results := { s.results with pktOut := .unwritten, offOut := .unwritten }
      status := .truncatedPacket }

/-- 60_exceptions.md R206: the unwritten-port check comes before the length check, for either of DECODE's
operands, whatever the other holds; and the command word is checked before both (the step at an illegal
word, issued or written to CMD, reports ILLEGAL_COMMAND whatever the operand ports hold). -/
def Obligations.ChecksAreMadeInPriorityOrder : Prop :=
  (∀ s : State, admitted s.config = true →
    s.operands.bufIn = .unwritten ∨ s.operands.offIn = .unwritten →
    ∃ t : State, exec .decode s = .next t ∧
      AfterUnwrittenPort { s.results with pktOut := .unwritten, offOut := .unwritten } s t) ∧
  (∀ (s : State) (w : Byte), admitted s.config = true →
    nextAction s = some (.issue w) ∨ nextAction s = some (.write 0x00 (.byte w)) →
    (∀ i : Instr, w ≠ Sys2Proof.encode i) →
    ∃ t : State, step s = .next t ∧ t.status = .illegalCommand ∧
      t.faults = s.faults ||| 0x01#8 ∧ t.results = s.results)

/-- 41_framer.md R134: BUILD_REQUEST reads no operand port and writes 0x23 and 47 zero bytes. -/
def Obligations.BuildRequestWritesTheMinimalRequest : Prop :=
  Sys2Proof.decode 0x03 = .ok .buildRequest ∧
  (∀ s : State, admitted s.config = true →
    ∃ (f : Frame) (t : State), exec .buildRequest s = .next t ∧
      AfterOk { s.results with frameOut := .holds f } s t ∧
      f[0] = 0x23 ∧ ∀ (a : Nat) (h : a < 48), 1 ≤ a → f[a] = 0x00)

/-- 42_timestamp.md R161: TS64_TO_LOCAL, exact under every admitted configuration. -/
def Obligations.Ts64ToLocalConvertsExactly : Prop :=
  Sys2Proof.decode 0x06 = .ok .ts64ToLocal ∧
  (∀ (s : State) (x : NtpTimestamp64), admitted s.config = true → s.operands.ts64In = .holds x →
    ∃ (v : BitVec 64) (t : State), exec .ts64ToLocal s = .next t ∧
      AfterOk { s.results with localOut := .holds v } s t ∧
      v.toInt = s.config.epochOffset + (x.seconds.toNat : Int) * s.config.unitsPerSecond
        + (x.fraction.toNat : Int) * s.config.unitsPerSecond / 2 ^ 32) ∧
  (∀ s : State, admitted s.config = true → s.operands.ts64In = .unwritten →
    ∃ t : State, exec .ts64ToLocal s = .next t ∧
      AfterUnwrittenPort { s.results with localOut := .unwritten } s t)

/-- 42_timestamp.md R162: TS32_TO_NANOS, unsigned and exact. -/
def Obligations.Ts32ToNanosConvertsExactly : Prop :=
  Sys2Proof.decode 0x07 = .ok .ts32ToNanos ∧
  (∀ (s : State) (d : NtpTimestamp32), admitted s.config = true → s.operands.ts32In = .holds d →
    ∃ (v : BitVec 64) (t : State), exec .ts32ToNanos s = .next t ∧
      AfterOk { s.results with nanosOut := .holds v } s t ∧
      v.toNat = d.seconds.toNat * 10 ^ 9 + d.fraction.toNat * 10 ^ 9 / 2 ^ 16 ∧
      v.toNat ≤ 65535999984741) ∧
  (∀ s : State, admitted s.config = true → s.operands.ts32In = .unwritten →
    ∃ t : State, exec .ts32ToNanos s = .next t ∧
      AfterUnwrittenPort { s.results with nanosOut := .unwritten } s t)

/-- 43_refid.md R180, R181: REFID_RENDER for stratum 1: the bytes before the first 0x00, verbatim. -/
def Obligations.StratumOneRendersText : Prop :=
  ∀ (s : State) (r : RefId), admitted s.config = true → s.operands.stratumIn = .holds 1 →
    s.operands.refidIn = .holds r →
    ∃ (n : Nat) (t : State), exec .refidRender s = .next t ∧
      AfterOk { s.results with textOut := .holds (r.toList.take n) } s t ∧
      n ≤ 4 ∧ (∀ (i : Nat) (h : i < 4), i < n → r[i] ≠ 0#8) ∧
      (∀ h : n < 4, r[n] = 0#8)

/-- 43_refid.md R180, R182: REFID_RENDER for every other stratum, 0 included: the dotted-decimal
address, first octet first. -/
def Obligations.OtherStrataRenderTheAddress : Prop :=
  ∀ (s : State) (st : Byte) (r : RefId), admitted s.config = true →
    s.operands.stratumIn = .holds st → st ≠ 1 → s.operands.refidIn = .holds r →
    ∃ (d0 d1 d2 d3 : List Byte) (t : State), exec .refidRender s = .next t ∧
      AfterOk { s.results with
        textOut := .holds (d0 ++ [0x2E] ++ d1 ++ [0x2E] ++ d2 ++ [0x2E] ++ d3) } s t ∧
      IsDecimalNumeral d0 r[0].toNat ∧ IsDecimalNumeral d1 r[1].toNat ∧
      IsDecimalNumeral d2 r[2].toNat ∧ IsDecimalNumeral d3 r[3].toNat ∧
      7 ≤ d0.length + d1.length + d2.length + d3.length + 3 ∧
      d0.length + d1.length + d2.length + d3.length + 3 ≤ 15

/-- 43_refid.md R183: the laws of REFID_RENDER: its operands, the one test of the stratum, and the length
of its result. -/
def Obligations.RenderDependsOnStratumOneOnly : Prop :=
  (∀ (s s' : State) (st st' : Byte) (r : RefId), admitted s.config = true →
    admitted s'.config = true →
    s.operands.stratumIn = .holds st → s'.operands.stratumIn = .holds st' → (st = 1 ↔ st' = 1) →
    s.operands.refidIn = .holds r → s'.operands.refidIn = .holds r →
    ∃ (b : List Byte) (t t' : State), exec .refidRender s = .next t ∧
      exec .refidRender s' = .next t' ∧
      t.results.textOut = .holds b ∧ t'.results.textOut = .holds b ∧
      (st = 1 → b.length ≤ 4) ∧ (st ≠ 1 → 7 ≤ b.length ∧ b.length ≤ 15)) ∧
  Sys2Proof.decode 0x08 = .ok .refidRender

/-- 43_refid.md R180, 60_exceptions.md R203: REFID_RENDER with an operand port never written. -/
def Obligations.RenderNeedsBothOperands : Prop :=
  ∀ s : State, admitted s.config = true →
    s.operands.stratumIn = .unwritten ∨ s.operands.refidIn = .unwritten →
    ∃ t : State, exec .refidRender s = .next t ∧
      AfterUnwrittenPort { s.results with textOut := .unwritten } s t

/-- 60_exceptions.md R203, 10_state.md R29, R30: any command with any operand port of its list unwritten
ends with UNWRITTEN_PORT, its own result registers unreadable and all else as it was. -/
def Obligations.UnwrittenOperandEndsTheCommand : Prop :=
  ∀ (s : State) (i : Instr) (p : Port), admitted s.config = true → p ∈ operandsOf i →
    portSlot s p = some .unwritten →
    ∃ t : State, exec i s = .next t ∧ t.status = .unwrittenPort ∧
      t.faults = s.faults ||| 0x02#8 ∧ t.run = { s.run with faulted := true } ∧
      t.operands = s.operands ∧ t.config = s.config ∧
      (∀ q ∈ resultsOf i, portSlot t q = some .unwritten) ∧
      (∀ q ∈ resultPorts, q ∉ resultsOf i → portSlot t q = portSlot s q)

/-- 10_state.md R31: the update discipline of the result registers, for every command in every state. That
a register is overwritten "entirely" is said by its new value being the same whatever the result registers
`r` held before. -/
def Obligations.ResultRegistersFollowTheDiscipline : Prop :=
  ∀ (s : State) (i : Instr), admitted s.config = true →
    ∃ t : State, exec i s = .next t ∧
      (t.status = .ok → ∀ p ∈ resultsOf i, portWritten t p = true) ∧
      (t.status ≠ .ok → ∀ p ∈ resultsOf i, portWritten t p = false) ∧
      (∀ p ∈ resultPorts, p ∉ resultsOf i → portSlot t p = portSlot s p) ∧
      (∀ r : Results, ∃ t' : State, exec i { s with results := r } = .next t' ∧
        t'.status = t.status ∧ ∀ p ∈ resultsOf i, portSlot t' p = portSlot t p)

/-- 10_state.md R29, R36, R20: a command's outcome and results are a function of the operand ports of its
list and the configuration alone: not of STATUS, FAULTS, the result registers or any other port. -/
def Obligations.ResultsDependOnOperandsAlone : Prop :=
  ∀ (s s' : State) (i : Instr), admitted s.config = true → s'.config = s.config →
    (∀ p ∈ operandsOf i, portSlot s' p = portSlot s p) →
    ∃ t t' : State, exec i s = .next t ∧ exec i s' = .next t' ∧ t'.status = t.status ∧
      (∀ p ∈ resultsOf i, portSlot t' p = portSlot t p)

/-- 10_state.md R29, R32, R33: the operand lists, and no command writes an operand port (so DECODE
neither changes BUF_IN nor feeds OFF_OUT back into OFF_IN), the configuration or the host's run but for
the fault record. -/
def Obligations.CommandsWriteNoOperandPort : Prop :=
  operandsOf .encode = [.pktIn] ∧ operandsOf .decode = [.bufIn, .offIn] ∧
  operandsOf .ts64ToLocal = [.ts64In] ∧ operandsOf .ts32ToNanos = [.ts32In] ∧
  operandsOf .flagsPack = [.fldIn] ∧ operandsOf .flagsUnpack = [.byteIn] ∧
  operandsOf .refidRender = [.stratumIn, .refidIn] ∧ operandsOf .buildRequest = [] ∧
  (∀ (s : State) (i : Instr), admitted s.config = true →
    ∃ t : State, exec i s = .next t ∧ t.operands = s.operands ∧ t.config = s.config ∧
      t.run.program = s.run.program ∧ t.run.h = s.run.h ∧ t.run.readValue = s.run.readValue)

/-- 60_exceptions.md R200, R201, R203, 70_reset_and_hazards.md R238: every command ends, in one step, with
one of its outcomes: UNWRITTEN_PORT where an operand is unwritten; else OK, but for DECODE, which ends with OK
where the frame fits (41_framer.md R132) and with TRUNCATED_PACKET where it does not. -/
def Obligations.EveryCommandEndsWithOneStatus : Prop :=
  ∀ (s : State) (i : Instr), admitted s.config = true →
    ∃ t : State, exec i s = .next t ∧
      ((t.status = .unwrittenPort ∧ ∃ p ∈ operandsOf i, portWritten s p = false) ∨
       ((∀ p ∈ operandsOf i, portWritten s p = true) ∧
        ((t.status = .ok ∧ (i = .decode → ∃ (buf : List Byte) (o : Nat),
            s.operands.bufIn = .holds buf ∧ s.operands.offIn = .holds o ∧ o + 48 ≤ buf.length)) ∨
         (t.status = .truncatedPacket ∧ i = .decode ∧ ∃ (buf : List Byte) (o : Nat),
            s.operands.bufIn = .holds buf ∧ s.operands.offIn = .holds o ∧
              buf.length < o + 48)))) ∧
      (t.status = .unwrittenPort → t.faults = s.faults ||| 0x02#8) ∧
      (t.status ≠ .unwrittenPort → t.faults = s.faults ∧ t.run = s.run)

/-- 41_framer.md R136: the round trip from packet to packet, of the functions and of the commands. -/
def Obligations.DecodeOfEncodeGivesThePacketBack : Prop :=
  (∀ p : NtpPacket, parseFrame (encodeFrame p) = p) ∧
  (∀ (s : State) (p : NtpPacket), admitted s.config = true → s.operands.pktIn = .holds p →
    ∃ (f : Frame) (t u : State), exec .encode s = .next t ∧ t.results.frameOut = .holds f ∧
      exec .decode { t with operands :=
        { t.operands with bufIn := .holds f.toList, offIn := .holds 0 } } = .next u ∧
      u.results.pktOut = .holds p ∧ u.results.offOut = .holds 48 ∧ u.status = .ok)

/-- 41_framer.md R137: the round trip from bytes to bytes; with R136, encode_frame and parse_frame are
mutually inverse bijections. -/
def Obligations.EncodeOfDecodeGivesTheBytesBack : Prop :=
  (∀ b : Frame, encodeFrame (parseFrame b) = b) ∧
  Function.Bijective encodeFrame ∧ Function.Bijective parseFrame ∧
  (∀ (s : State) (b : Frame), admitted s.config = true →
    s.operands.bufIn = .holds b.toList → s.operands.offIn = .holds 0 →
    ∃ (p : NtpPacket) (t u : State), exec .decode s = .next t ∧ t.results.pktOut = .holds p ∧
      exec .encode { t with operands := { t.operands with pktIn := .holds p } } = .next u ∧
      u.results.frameOut = .holds b ∧ u.status = .ok)

/-- 40_bitpack.md R107: every primitive is a bijection between its value type and its bytes. -/
def Obligations.PackingPrimitivesRoundTrip : Prop :=
  (∀ (v : BitVec 16) (a b : Byte), (putBe16 v = [a, b] → getBe16 a b = v) ∧
    putBe16 (getBe16 a b) = [a, b]) ∧
  (∀ (v : BitVec 32) (a b c d : Byte), (putBe32 v = [a, b, c, d] → getBe32 a b c d = v) ∧
    putBe32 (getBe32 a b c d) = [a, b, c, d]) ∧
  (∀ (t : NtpTimestamp32) (a b c d : Byte), (putTs32 t = [a, b, c, d] → getTs32 a b c d = t) ∧
    putTs32 (getTs32 a b c d) = [a, b, c, d]) ∧
  (∀ (t : NtpTimestamp64) (a b c d e f g h : Byte),
    (putTs64 t = [a, b, c, d, e, f, g, h] → getTs64 a b c d e f g h = t) ∧
    putTs64 (getTs64 a b c d e f g h) = [a, b, c, d, e, f, g, h]) ∧
  (∀ (p : BitVec 8) (b : Byte), getS8 (putS8 p) = p ∧ putS8 (getS8 b) = b) ∧
  (∀ (f : FlagFields) (b : Byte), unpackFlags (packFlags f) = f ∧ packFlags (unpackFlags b) = b)

/-- 41_framer.md R138: the cursor law, for one DECODE and for `k` back-to-back frames. -/
def Obligations.CursorWalksBackToBackFrames : Prop :=
  ∀ (k : Nat) (s : State) (buf : List Byte) (o : Nat), admitted s.config = true → 1 ≤ k →
    s.operands.bufIn = .holds buf → s.operands.offIn = .holds o →
    ((decodeFrames k s).isSome = true ↔ o + 48 * k ≤ buf.length) ∧
    (∀ t : State, decodeFrames k s = some t →
      t.results.offOut = .holds (o + 48 * k) ∧ t.operands.offIn = .holds (o + 48 * k) ∧
      t.operands.bufIn = .holds buf)

/-- 41_framer.md R139, 20_memory.md R56, R57: DECODE depends only on the 48 bytes at its offset: buffers of
any lengths that agree on them, at any two offsets, give the same packet, and the same OFF_OUT at the
same offset. -/
def Obligations.DecodeReadsItsFrameAlone : Prop :=
  ∀ (s s' : State) (buf buf' : List Byte) (o o' : Nat), admitted s.config = true →
    admitted s'.config = true →
    s.operands.bufIn = .holds buf → s.operands.offIn = .holds o →
    s'.operands.bufIn = .holds buf' → s'.operands.offIn = .holds o' →
    o + 48 ≤ buf.length → o' + 48 ≤ buf'.length →
    (∀ i, i < 48 → buf[o + i]? = buf'[o' + i]?) →
    ∃ t t' : State, exec .decode s = .next t ∧ exec .decode s' = .next t' ∧
      t.status = .ok ∧ t'.status = .ok ∧ t.results.pktOut = t'.results.pktOut ∧
      (o = o' → t.results.offOut = t'.results.offOut)

/-- 42_timestamp.md R163: both conversions are non-decreasing in the fixed-point value of their input,
under one configuration. -/
def Obligations.ConversionsAreMonotone : Prop :=
  (∀ (s s' : State) (x y : NtpTimestamp64), admitted s.config = true → s'.config = s.config →
    s.operands.ts64In = .holds x → s'.operands.ts64In = .holds y →
    x.seconds.toNat * 2 ^ 32 + x.fraction.toNat ≤ y.seconds.toNat * 2 ^ 32 + y.fraction.toNat →
    ∃ (v w : BitVec 64) (t t' : State), exec .ts64ToLocal s = .next t ∧
      exec .ts64ToLocal s' = .next t' ∧ t.results.localOut = .holds v ∧
      t'.results.localOut = .holds w ∧ v.toInt ≤ w.toInt) ∧
  (∀ (s s' : State) (x y : NtpTimestamp32), admitted s.config = true → s'.config = s.config →
    s.operands.ts32In = .holds x → s'.operands.ts32In = .holds y →
    x.seconds.toNat * 2 ^ 16 + x.fraction.toNat ≤ y.seconds.toNat * 2 ^ 16 + y.fraction.toNat →
    ∃ (v w : BitVec 64) (t t' : State), exec .ts32ToNanos s = .next t ∧
      exec .ts32ToNanos s' = .next t' ∧ t.results.nanosOut = .holds v ∧
      t'.results.nanosOut = .holds w ∧ v.toNat ≤ w.toNat)

/-- 42_timestamp.md R164: each result is the floor of the exact rational value, so below it by less than
one output unit. -/
def Obligations.ConversionsRoundDownOnce : Prop :=
  (∀ (s : State) (x : NtpTimestamp64), admitted s.config = true → s.operands.ts64In = .holds x →
    ∃ (v : BitVec 64) (t : State), exec .ts64ToLocal s = .next t ∧ t.results.localOut = .holds v ∧
      (v.toInt : ℤ) = s.config.epochOffset +
        ⌊((x.seconds.toNat : ℚ) + x.fraction.toNat / 2 ^ 32) * s.config.unitsPerSecond⌋) ∧
  (∀ (s : State) (d : NtpTimestamp32), admitted s.config = true → s.operands.ts32In = .holds d →
    ∃ (v : BitVec 64) (t : State), exec .ts32ToNanos s = .next t ∧ t.results.nanosOut = .holds v ∧
      (v.toNat : ℤ) = ⌊((d.seconds.toNat : ℚ) + d.fraction.toNat / 2 ^ 16) * 10 ^ 9⌋)

/-- 00_scope.md R10: the admitted configurations are those of the three conditions; for `U` in 1..2^32 they
are exactly the ones under which every result of R161 fits in a signed 64-bit integer (outside that range the
condition on `U` refuses, U = 0 say, whether or not a result overflows); any other has no machine. -/
def Obligations.AdmittedConfigurationsNeverOverflow : Prop :=
  (∀ c : Config, admitted c = true ↔
    1 ≤ c.unitsPerSecond ∧ c.unitsPerSecond ≤ 2 ^ 32 ∧ -2 ^ 63 ≤ c.epochOffset ∧
    c.epochOffset + (2 ^ 32 - 1) * (c.unitsPerSecond : Int)
      + (2 ^ 32 - 1) * (c.unitsPerSecond : Int) / 2 ^ 32 ≤ 2 ^ 63 - 1) ∧
  (∀ c : Config, 1 ≤ c.unitsPerSecond → c.unitsPerSecond ≤ 2 ^ 32 →
    (admitted c = true ↔ ∀ x : NtpTimestamp64,
      -2 ^ 63 ≤ c.epochOffset + (x.seconds.toNat : Int) * c.unitsPerSecond
        + (x.fraction.toNat : Int) * c.unitsPerSecond / 2 ^ 32 ∧
      c.epochOffset + (x.seconds.toNat : Int) * c.unitsPerSecond
        + (x.fraction.toNat : Int) * c.unitsPerSecond / 2 ^ 32 ≤ 2 ^ 63 - 1)) ∧
  (∀ c : Config, admitted c = false → ∀ s : State, instantiate c ≠ .next s)

/-- 60_exceptions.md R205: no instance, no command and no host action under a configuration that fails
00_scope.md R10; under an admitted one the instance starts in the reset state (70_reset_and_hazards.md R231).
That such a configuration can stand in State, where every step and every meaning refuses it, is the model's
choice (log 11). -/
def Obligations.OtherConfigurationsAreRefused : Prop :=
  (∀ c : Config, admitted c = false → instantiate c = .refused .configurationRefused) ∧
  (∀ c : Config, admitted c = true → instantiate c = .next (.resetWith c)) ∧
  (∀ (s : State) (i : Instr), admitted s.config = false →
    exec i s = .refused .configurationRefused ∧ step s = .refused .configurationRefused)

/-- 10_state.md R40: WRITE of a value of the port's type stores it and sets the `written` bit, and changes
nothing else; the nine operand ports, by number, take a value of their type (R27) and of no other. -/
def Obligations.WriteStoresTheOperand : Prop :=
  (∀ (s : State) (p : Port) (v : PortValue), admitted s.config = true → p ∈ operandPorts →
    nextAction s = some (.write (portNumber p) v) →
    (HostAction.write (portNumber p) v).allowed = true →
    ∃ t : State, step s = .next t ∧ portSlot t p = some (.holds v) ∧
      (∀ q : Port, q ≠ p → portSlot t q = portSlot s q) ∧ t.faults = s.faults ∧
      t.config = s.config ∧ t.run = { s.run with h := s.run.h + 1 }) ∧
  (∀ v : PortValue,
    ((HostAction.write 0x10 v).allowed = true ↔ ∃ x, v = .packet x) ∧
    ((HostAction.write 0x11 v).allowed = true ↔ ∃ x, v = .bytes x) ∧
    ((HostAction.write 0x12 v).allowed = true ↔ ∃ x, v = .nat x) ∧
    ((HostAction.write 0x13 v).allowed = true ↔ ∃ x, v = .ts64 x) ∧
    ((HostAction.write 0x14 v).allowed = true ↔ ∃ x, v = .ts32 x) ∧
    ((HostAction.write 0x15 v).allowed = true ↔ ∃ x, v = .byte x) ∧
    ((HostAction.write 0x16 v).allowed = true ↔ ∃ x, v = .fields x) ∧
    ((HostAction.write 0x17 v).allowed = true ↔ ∃ x, v = .byte x) ∧
    ((HostAction.write 0x18 v).allowed = true ↔ ∃ x, v = .refId x))

/-- 10_state.md R42, 60_exceptions.md R203: READ gives the host the port's value and changes no state, or
raises `UnwrittenPort`: FAULTS bit 1, no value, STATUS as it was. The value is the stored one: of the operand
port or result register itself, with its type (R27) and `written` bit; of STATUS and FAULTS,
`StatusAndFaultsReadAsEncoded` says it. -/
def Obligations.ReadReturnsTheValueOrFaults : Prop :=
  (∀ (s : State) (p : Port) (v : PortValue), admitted s.config = true →
    nextAction s = some (.read (portNumber p)) → portSlot s p = some (.holds v) →
    step s = .next { s with run := { s.run with h := s.run.h + 1, readValue := some v } }) ∧
  (∀ (s : State) (p : Port), admitted s.config = true →
    nextAction s = some (.read (portNumber p)) → portSlot s p = some .unwritten →
    step s = .next { s with
      faults := s.faults ||| 0x02#8
      run := { s.run with h := s.run.h + 1, readValue := none, faulted := true } }) ∧
  (∀ s : State, portSlot s .configU = some (.holds (.nat s.config.unitsPerSecond)) ∧
    (admitted s.config = true → ∃ e : BitVec 64, portSlot s .configE = some (.holds (.s64 e)) ∧
      e.toInt = s.config.epochOffset)) ∧
  (∀ s : State,
    portSlot s .pktIn = some (s.operands.pktIn.map .packet) ∧
    portSlot s .bufIn = some (s.operands.bufIn.map .bytes) ∧
    portSlot s .offIn = some (s.operands.offIn.map .nat) ∧
    portSlot s .ts64In = some (s.operands.ts64In.map .ts64) ∧
    portSlot s .ts32In = some (s.operands.ts32In.map .ts32) ∧
    portSlot s .byteIn = some (s.operands.byteIn.map .byte) ∧
    portSlot s .fldIn = some (s.operands.fldIn.map .fields) ∧
    portSlot s .stratumIn = some (s.operands.stratumIn.map .byte) ∧
    portSlot s .refidIn = some (s.operands.refidIn.map .refId) ∧
    portSlot s .frameOut = some (s.results.frameOut.map .frame) ∧
    portSlot s .pktOut = some (s.results.pktOut.map .packet) ∧
    portSlot s .offOut = some (s.results.offOut.map .nat) ∧
    portSlot s .localOut = some (s.results.localOut.map .s64) ∧
    portSlot s .nanosOut = some (s.results.nanosOut.map .u64) ∧
    portSlot s .flagsOut = some (s.results.flagsOut.map .byte) ∧
    portSlot s .fldOut = some (s.results.fldOut.map .fields) ∧
    portSlot s .textOut = some (s.results.textOut.map .bytes) ∧
    portSlot s .cmd = none) ∧
  (∀ (α : Type) (f : α → PortValue) (v : α),
    Slot.map f .unwritten = .unwritten ∧ Slot.map f (.holds v) = .holds (f v))

/-- 10_state.md R34, R35: what STATUS and FAULTS read as: the codes 0..4, and bits 7:2 of FAULTS zero. -/
def Obligations.StatusAndFaultsReadAsEncoded : Prop :=
  ∀ s : State, ∃ b f : Byte, portSlot s .status = some (.holds (.byte b)) ∧
    portSlot s .faults = some (.holds (.byte f)) ∧
    (s.status = .none → b = 0) ∧ (s.status = .ok → b = 1) ∧ (s.status = .truncatedPacket → b = 2) ∧
    (s.status = .illegalCommand → b = 3) ∧ (s.status = .unwrittenPort → b = 4) ∧ b.toNat ≤ 4 ∧
    f.extractLsb' 2 6 = 0#6 ∧ f.extractLsb' 0 2 = s.faults.extractLsb' 0 2

/-- 70_reset_and_hazards.md R230, 10_state.md R43: RESET puts the block in its reset state under the same
configuration; and no other action clears a FAULTS bit or an operand port's `written` bit. That RESET leaves
the host's run as it is, but for the host index (10_state.md R45), is the model's inference (log 8): the
program, the fault record (60_exceptions.md R209) and the value last read stay. -/
def Obligations.OnlyResetClearsFaultsAndOperands : Prop :=
  (∀ s : State, admitted s.config = true → nextAction s = some .reset →
    step s = .next { State.resetWith s.config with run := { s.run with h := s.run.h + 1 } }) ∧
  (∀ (s t : State) (a : HostAction), nextAction s = some a → a ≠ .reset → step s = .next t →
    s.faults &&& t.faults = s.faults ∧
    ∀ p ∈ operandPorts, portWritten s p = true → portWritten t p = true)

/-- 10_state.md R44: a host access outside R40 to R43 has no move, and every other action has one. A WRITE
has one at CMD for a u8 alone (R41) and at the operand ports 0x10..0x18 (for the types
`WriteStoresTheOperand` lists, R40), a READ at every port but CMD (R42), ISSUE of any word and RESET always.
'No move' is a refusal here, and so is a WRITE of a value not of the port's type (log 5). -/
def Obligations.AccessesOutsideTheMapHaveNoMove : Prop :=
  (∀ (s : State) (a : HostAction), admitted s.config = true → nextAction s = some a →
    (a.allowed = false → step s = .refused .noMove) ∧
    (a.allowed = true → ∃ t : State, step s = .next t)) ∧
  (∀ n : Byte, (∃ v : PortValue, (HostAction.write n v).allowed = true) ↔
    n = 0x00 ∨ (0x10 ≤ n.toNat ∧ n.toNat ≤ 0x18)) ∧
  (∀ v : PortValue, (HostAction.write 0x00 v).allowed = true ↔ ∃ w : Byte, v = .byte w) ∧
  (∀ n : Byte, (HostAction.read n).allowed = true ↔
    (0x01 ≤ n.toNat ∧ n.toNat ≤ 0x04) ∨ (0x10 ≤ n.toNat ∧ n.toNat ≤ 0x18) ∨
      (0x20 ≤ n.toNat ∧ n.toNat ≤ 0x27)) ∧
  (∀ w : Byte, (HostAction.issue w).allowed = true) ∧ HostAction.reset.allowed = true

/-- 10_state.md R45, R21: every allowed action, "whether it succeeds or faults", is one step that advances
the host index by 1 and keeps the program and the configuration. -/
def Obligations.EveryAllowedActionIsOneStep : Prop :=
  ∀ (s : State) (a : HostAction), admitted s.config = true → nextAction s = some a →
    a.allowed = true →
    ∃ t : State, step s = .next t ∧ t.run.h = s.run.h + 1 ∧ t.run.program = s.run.program ∧
      t.config = s.config

/-- 70_reset_and_hazards.md R238, R239: a run of allowed actions takes exactly as many steps as it has
actions, and ends with the host index at the length of the program. A further step has no action: that it
is refused as `runEnded` is the model's choice (log 3). -/
def Obligations.RunsOfAllowedActionsReachTheirEnd : Prop :=
  ∀ s : State, admitted s.config = true → s.run.h ≤ s.run.program.length →
    (∀ a ∈ s.run.program.drop s.run.h, a.allowed = true) →
    ∃ t : State,
      Host.Core.run Sys2Proof.core (s.run.program.length - s.run.h) s = .next t ∧
      t.runEnded = true ∧ t.run.program = s.run.program ∧ t.config = s.config ∧
      step t = .refused .runEnded

/-- 60_exceptions.md R209: no action, RESET included, clears the run-level fault record, and it is set by
an action that sets a FAULTS bit. -/
def Obligations.FaultRecordIsNeverCleared : Prop :=
  ∀ s t : State, step s = .next t →
    (s.run.faulted = true → t.run.faulted = true) ∧
    (t.faults ≠ s.faults → nextAction s ≠ some .reset → t.run.faulted = true) ∧
    (nextAction s = some .reset → t.run.faulted = s.run.faulted)

/-- 20_memory.md R60: DECODE issued twice in a row with the same BUF_IN and OFF_IN leaves the state of the
first. -/
def Obligations.DecodeIsIdempotent : Prop :=
  ∀ (s : State) (buf : List Byte) (o : Nat), admitted s.config = true →
    s.operands.bufIn = .holds buf → s.operands.offIn = .holds o →
    ∃ t : State, exec .decode s = .next t ∧ exec .decode t = .next t

/-- 30_encoding.md R84: each pseudo-instruction is exactly its expansion. -/
def Obligations.PseudoInstructionsExpandAsListed : Prop :=
  (∀ p, expandPseudo (.encode p) = [.write 0x10 (.packet p), .issue 0x01]) ∧
  (∀ b o, expandPseudo (.decode b o) =
    [.write 0x11 (.bytes b), .write 0x12 (.nat o), .issue 0x02]) ∧
  (∀ o, expandPseudo (.decodeAt o) = [.write 0x12 (.nat o), .issue 0x02]) ∧
  (∀ f, expandPseudo (.pack f) = [.write 0x16 (.fields f), .issue 0x04]) ∧
  (∀ b, expandPseudo (.unpack b) = [.write 0x15 (.byte b), .issue 0x05]) ∧
  (∀ t, expandPseudo (.toLocal t) = [.write 0x13 (.ts64 t), .issue 0x06]) ∧
  (∀ d, expandPseudo (.toNanos d) = [.write 0x14 (.ts32 d), .issue 0x07]) ∧
  (∀ st r, expandPseudo (.render st r) =
    [.write 0x17 (.byte st), .write 0x18 (.refId r), .issue 0x08])

/-- 30_encoding.md R83: the line of a mnemonic issues its command word, in whatever case its letters stand;
`.cmd` issues a raw word, which a literal out of range does not give; `read` of a port name is a READ of that
port, by the names and numbers of 10_state.md R27; `reset` is RESET; and what follows a semicolon is a
comment. -/
def Obligations.AssemblyLinesNameTheHostActions : Prop :=
  assembleLine "ENCODE" = .ok [.issue 0x01] ∧
  assembleLine "DECODE" = .ok [.issue 0x02] ∧
  assembleLine "BUILD_REQUEST" = .ok [.issue 0x03] ∧
  assembleLine "FLAGS_PACK" = .ok [.issue 0x04] ∧
  assembleLine "FLAGS_UNPACK" = .ok [.issue 0x05] ∧
  assembleLine "TS64_TO_LOCAL" = .ok [.issue 0x06] ∧
  assembleLine "TS32_TO_NANOS" = .ok [.issue 0x07] ∧
  assembleLine "REFID_RENDER" = .ok [.issue 0x08] ∧
  (∀ cs : List Char,
    (cs.map Char.toLower = "encode".toList → assembleLine (String.ofList cs) = .ok [.issue 0x01]) ∧
    (cs.map Char.toLower = "decode".toList → assembleLine (String.ofList cs) = .ok [.issue 0x02]) ∧
    (cs.map Char.toLower = "build_request".toList → assembleLine (String.ofList cs) = .ok [.issue 0x03]) ∧
    (cs.map Char.toLower = "flags_pack".toList → assembleLine (String.ofList cs) = .ok [.issue 0x04]) ∧
    (cs.map Char.toLower = "flags_unpack".toList → assembleLine (String.ofList cs) = .ok [.issue 0x05]) ∧
    (cs.map Char.toLower = "ts64_to_local".toList → assembleLine (String.ofList cs) = .ok [.issue 0x06]) ∧
    (cs.map Char.toLower = "ts32_to_nanos".toList → assembleLine (String.ofList cs) = .ok [.issue 0x07]) ∧
    (cs.map Char.toLower = "refid_render".toList → assembleLine (String.ofList cs) = .ok [.issue 0x08])) ∧
  (∀ (cs : List Char) (x : Option Byte), IsUnsignedLiteral 8 cs x →
    assembleLine (lineOf ".cmd " cs) = assembled (x.map fun w => [.issue w])) ∧
  assembleLine "read CMD" = .ok [.read 0x00] ∧
  assembleLine "read STATUS" = .ok [.read 0x01] ∧
  assembleLine "read FAULTS" = .ok [.read 0x02] ∧
  assembleLine "read CONFIG_U" = .ok [.read 0x03] ∧
  assembleLine "read CONFIG_E" = .ok [.read 0x04] ∧
  assembleLine "read PKT_IN" = .ok [.read 0x10] ∧
  assembleLine "read BUF_IN" = .ok [.read 0x11] ∧
  assembleLine "read OFF_IN" = .ok [.read 0x12] ∧
  assembleLine "read TS64_IN" = .ok [.read 0x13] ∧
  assembleLine "read TS32_IN" = .ok [.read 0x14] ∧
  assembleLine "read BYTE_IN" = .ok [.read 0x15] ∧
  assembleLine "read FLD_IN" = .ok [.read 0x16] ∧
  assembleLine "read STRATUM_IN" = .ok [.read 0x17] ∧
  assembleLine "read REFID_IN" = .ok [.read 0x18] ∧
  assembleLine "read FRAME_OUT" = .ok [.read 0x20] ∧
  assembleLine "read PKT_OUT" = .ok [.read 0x21] ∧
  assembleLine "read OFF_OUT" = .ok [.read 0x22] ∧
  assembleLine "read LOCAL_OUT" = .ok [.read 0x23] ∧
  assembleLine "read NANOS_OUT" = .ok [.read 0x24] ∧
  assembleLine "read FLAGS_OUT" = .ok [.read 0x25] ∧
  assembleLine "read FLD_OUT" = .ok [.read 0x26] ∧
  assembleLine "read TEXT_OUT" = .ok [.read 0x27] ∧
  assembleLine "reset" = .ok [.reset] ∧
  (∀ cs comment : List Char, '"' ∉ cs →
    assembleLine (String.ofList (cs ++ ';' :: comment)) = assembleLine (String.ofList cs))

/-- The invariant `State.Inv` holds of a new instance under every admitted configuration, whatever program
its host takes up (10_state.md R39, R45). -/
def Obligations.InvariantHoldsAfterReset : Prop :=
  ∀ (c : Config) (p : List HostAction), admitted c = true →
    State.Inv (startProgram p (.resetWith c))

/-- Every step keeps the invariant `State.Inv`: FAULTS' reserved bits, the run-level fault record, STATUS
against the ports and FAULTS, the ranges of OFF_OUT, LOCAL_OUT, NANOS_OUT and TEXT_OUT, and the host
index. -/
def Obligations.EveryStepKeepsTheInvariant : Prop :=
  ∀ s t : State, State.Inv s → step s = .next t → State.Inv t

/-- 30_encoding.md R83, 10_state.md R40: `set` of an operand port and a literal of its type is the WRITE of that
value to that port, for every value and every text of the literal in R83's form; "A literal out of its
field's range is an assembly error. It produces no host action". A minus sign is read as log 14 says. -/
def Obligations.SetLinesWriteTheOperandPorts : Prop :=
  (∀ (cs : List Char) (x : Option NtpPacket), IsPacketLiteral cs x →
    assembleLine (lineOf "set PKT_IN, " cs) =
      assembled (x.map fun v => [.write 0x10 (.packet v)])) ∧
  (∀ (cs : List Char) (bs : List Byte), IsBytesLiteral cs bs →
    assembleLine (lineOf "set BUF_IN, " cs) = .ok [.write 0x11 (.bytes bs)]) ∧
  (∀ (cs : List Char) (x : Option Nat), IsNatLiteral cs x →
    assembleLine (lineOf "set OFF_IN, " cs) =
      assembled (x.map fun v => [.write 0x12 (.nat v)])) ∧
  (∀ (cs : List Char) (x : Option NtpTimestamp64), IsTs64Literal cs x →
    assembleLine (lineOf "set TS64_IN, " cs) =
      assembled (x.map fun v => [.write 0x13 (.ts64 v)])) ∧
  (∀ (cs : List Char) (x : Option NtpTimestamp32), IsTs32Literal cs x →
    assembleLine (lineOf "set TS32_IN, " cs) =
      assembled (x.map fun v => [.write 0x14 (.ts32 v)])) ∧
  (∀ (cs : List Char) (x : Option Byte), IsUnsignedLiteral 8 cs x →
    assembleLine (lineOf "set BYTE_IN, " cs) =
      assembled (x.map fun v => [.write 0x15 (.byte v)])) ∧
  (∀ (cs : List Char) (x : Option FlagFields), IsFlagsLiteral cs x →
    assembleLine (lineOf "set FLD_IN, " cs) =
      assembled (x.map fun v => [.write 0x16 (.fields v)])) ∧
  (∀ (cs : List Char) (x : Option Byte), IsUnsignedLiteral 8 cs x →
    assembleLine (lineOf "set STRATUM_IN, " cs) =
      assembled (x.map fun v => [.write 0x17 (.byte v)])) ∧
  (∀ (cs : List Char) (x : Option RefId), IsRefIdLiteral cs x →
    assembleLine (lineOf "set REFID_IN, " cs) =
      assembled (x.map fun v => [.write 0x18 (.refId v)]))

/-- 30_encoding.md R84: the line of a pseudo-instruction assembles exactly as the lines of its expansion do,
"host action by host action", an operand out of its field's range included. -/
def Obligations.PseudoLinesAssembleAsTheirExpansion : Prop :=
  (∀ (p : List Char) (x : Option NtpPacket), IsPacketLiteral p x →
    assembleLine (lineOf "encode " p) = assemble [lineOf "set PKT_IN, " p, "ENCODE"]) ∧
  (∀ (b o : List Char) (bs : List Byte) (x : Option Nat), IsBytesLiteral b bs → IsNatLiteral o x →
    assembleLine (lineOf "decode " (b ++ ", ".toList ++ o)) =
      assemble [lineOf "set BUF_IN, " b, lineOf "set OFF_IN, " o, "DECODE"]) ∧
  (∀ (o : List Char) (x : Option Nat), IsNatLiteral o x →
    assembleLine (lineOf "decode_at " o) = assemble [lineOf "set OFF_IN, " o, "DECODE"]) ∧
  (∀ (li vn mode : List Char) (a : Option (BitVec 2)) (b c : Option (BitVec 3)),
    IsUnsignedLiteral 2 li a → IsUnsignedLiteral 3 vn b → IsUnsignedLiteral 3 mode c →
    assembleLine (lineOf "pack " (li ++ ", ".toList ++ vn ++ ", ".toList ++ mode)) =
      assemble [lineOf "set FLD_IN, "
        (braced ("li=".toList ++ li ++ ", vn=".toList ++ vn ++ ", mode=".toList ++ mode)),
        "FLAGS_PACK"]) ∧
  (∀ (b : List Char) (x : Option Byte), IsUnsignedLiteral 8 b x →
    assembleLine (lineOf "unpack " b) = assemble [lineOf "set BYTE_IN, " b, "FLAGS_UNPACK"]) ∧
  (∀ (t : List Char) (x : Option NtpTimestamp64), IsTs64Literal t x →
    assembleLine (lineOf "to_local " t) = assemble [lineOf "set TS64_IN, " t, "TS64_TO_LOCAL"]) ∧
  (∀ (d : List Char) (x : Option NtpTimestamp32), IsTs32Literal d x →
    assembleLine (lineOf "to_nanos " d) = assemble [lineOf "set TS32_IN, " d, "TS32_TO_NANOS"]) ∧
  (∀ (st r : List Char) (x : Option Byte) (y : Option RefId), IsUnsignedLiteral 8 st x →
    IsRefIdLiteral r y →
    assembleLine (lineOf "render " (st ++ ", ".toList ++ r)) =
      assemble [lineOf "set STRATUM_IN, " st, lineOf "set REFID_IN, " r, "REFID_RENDER"])

/-- 30_encoding.md R83, 10_state.md R45: a host program is the actions of its lines, in order; a line with an
assembly error leaves the program without any action. -/
def Obligations.ProgramsAreTheirLinesInOrder : Prop :=
  assemble [] = .ok [] ∧
  (∀ (line : String) (lines : List String) (a b : List HostAction),
    assembleLine line = .ok a → assemble lines = .ok b → assemble (line :: lines) = .ok (a ++ b)) ∧
  (∀ (line : String) (lines : List String) (e : AsmError), line ∈ lines →
    assembleLine line = .error e → ∃ e' : AsmError, assemble lines = .error e')
end

