-- ==== Sys2Proof/Laws/Assembler.lean ====
section
/-! SUPPORT. What the lexer and the readers of Machine/Assembler.lean make of the literals of 30_encoding.md
R83, one lemma per kind of literal, for proofs about lines to cite instead of unfolding them. -/

namespace Sys2Proof.Machine

/-- A digit is read at its value, and is neither the mark of a base, a quote nor a sign. -/
theorem hexDigit_of_isDigit {base : Nat} {c : Char} {d : Nat} (hb : base ≤ 16)
    (h : IsDigit base c d) : hexDigit c = some d ∧ isWordChar c = true ∧ c ≠ 'x' ∧ c ≠ '"' ∧
      (base ≤ 10 → c.isDigit = true) ∧ c ≠ '-' := by
  have : ∀ d < 16, ∀ c, ("0123456789abcdef".toList[d]? = some c ∨ "0123456789ABCDEF".toList[d]? = some c) →
      hexDigit c = some d ∧ isWordChar c = true ∧ c ≠ 'x' ∧ c ≠ '"' ∧ (d < 10 → c.isDigit = true) ∧ c ≠ '-' := by
    intro d hd c hc
    interval_cases d <;> rcases hc with hc | hc <;> cases hc <;> decide
  obtain ⟨hd, hc⟩ := h
  obtain ⟨a, b, c, d, e, f⟩ := this d (by omega) _ hc
  exact ⟨a, b, c, d, fun h => e (by omega), f⟩

/-- A numeral is read at its value. -/
theorem numeral_eq {base : Nat} (hb : base ≤ 16) {cs : List Char} {n : Nat}
    (h : IsNumeral base cs n) : numeral base cs = some n := by
  obtain ⟨ds, -, hf, rfl⟩ := h
  unfold numeral
  suffices ∀ a, cs.foldl (fun acc c => do
      let v ← acc
      let d ← hexDigit c
      if d < base then some (v * base + d) else none) (some a) =
        some (ds.foldl (fun v d => base * v + d) a) from this 0
  induction hf with
  | nil => intro a; rfl
  | cons h _ ih =>
    intro a
    simp only [List.foldl_cons]
    rw [← ih]
    congr 1
    simp [(hexDigit_of_isDigit hb h).1, h.1, Nat.mul_comm]

/-- The characters of a numeral. -/
theorem numeral_chars {base : Nat} (hb : base ≤ 16) {cs : List Char} {n : Nat}
    (h : IsNumeral base cs n) : cs ≠ [] ∧ ∀ c ∈ cs,
      isWordChar c = true ∧ c ≠ 'x' ∧ (base ≤ 10 → c.isDigit = true) ∧ c ≠ '-' := by
  obtain ⟨ds, hne, hf, -⟩ := h
  constructor
  · rintro rfl; cases hf; exact hne rfl
  · clear hne; induction hf with
    | nil => simp
    | cons h _ ih =>
      intro c hc
      rcases List.mem_cons.1 hc with rfl | hc
      · obtain ⟨_, a, b, _, c, d⟩ := hexDigit_of_isDigit hb h; exact ⟨a, b, c, d⟩
      · exact ih c hc

/-- An integer literal is one word, and reads as its value. -/
theorem intLiteral_spec {cs : List Char} {v : Int} (h : IsIntLiteral cs v) :
    (∀ c ∈ cs, isWordChar c = true) ∧ wordToken cs = some (.int v) := by
  obtain ⟨body, n, hb, hs⟩ := h
  have hw : (∀ c ∈ body, isWordChar c = true) ∧ natLiteral body = some n ∧
      ∃ c r, body = c :: r ∧ c.isDigit = true ∧ c ≠ '-' := by
    rcases hb with hb | ⟨ds, rfl, hb⟩
    · obtain ⟨hne, hc⟩ := numeral_chars (by decide) hb
      refine ⟨fun c h => (hc c h).1, ?_, ?_⟩
      · rw [← numeral_eq (by decide) hb]
        unfold natLiteral; split
        · exact absurd rfl hne
        · exact absurd rfl (hc 'x' (by simp)).2.1
        · exact absurd rfl (hc 'x' (by simp)).2.1
        · rfl
      · cases body with
        | nil => exact absurd rfl hne
        | cons c r => exact ⟨c, r, rfl, (hc c (by simp)).2.2.1 (by decide), (hc c (by simp)).2.2.2⟩
    · obtain ⟨hne, hc⟩ := numeral_chars (by decide) hb
      refine ⟨?_, ?_, '0', _, rfl, by decide, by decide⟩
      · intro c h; simp only [List.mem_cons] at h
        rcases h with rfl | rfl | h
        · decide
        · decide
        · exact (hc c h).1
      · cases ds with
        | nil => exact absurd rfl hne
        | cons c r => exact numeral_eq (by decide) hb
  obtain ⟨h1, h2, c, r, rfl, h3, h4⟩ := hw
  rcases hs with ⟨rfl, rfl⟩ | ⟨rfl, rfl⟩
  · refine ⟨h1, ?_⟩
    simp only [wordToken, h3, Bool.true_or, if_true]
    have : intLiteral (c :: r) = (natLiteral (c :: r)).map fun n => (n : Int) := by
      unfold intLiteral; split
      · rename_i h; cases h; exact absurd rfl h4
      · rfl
    rw [this, h2]; rfl
  · refine ⟨?_, ?_⟩
    · intro x hx; rcases List.mem_cons.1 hx with rfl | hx
      · decide
      · exact h1 x hx
    · simp [wordToken, intLiteral, h2]

/-- The lexer stays in a word over word characters. -/
theorem lex_wordChars (ts : List Token) (cs acc : List Char) (h : ∀ c ∈ cs, isWordChar c = true) :
    cs.foldl lexChar (ts, .word acc) = (ts, .word (cs.reverse ++ acc)) := by
  induction cs generalizing acc with
  | nil => rfl
  | cons c cs ih =>
    simp only [List.foldl_cons, lexChar, h c (by simp), if_true]
    rw [ih _ fun c hc => h c (by simp [hc])]; simp

/-- A character of a word starts a word. -/
theorem isWordChar_plain {c : Char} (h : isWordChar c = true) (ts : List Token) :
    lexPlain ts c = (ts, .word [c]) := by
  have h1 : isBlank c = false := by
    by_contra hb; simp only [isBlank, Bool.not_eq_false, Bool.or_eq_true, beq_iff_eq] at hb
    rcases hb with ((rfl | rfl) | rfl) | rfl <;> revert h <;> decide
  have h2 : (c == ';') = false := by
    by_contra hb; simp at hb; subst hb; revert h; decide
  have h3 : isPunct c = false := by
    by_contra hb; simp only [isPunct, openBrace, closeBrace, Bool.not_eq_false, Bool.or_eq_true, beq_iff_eq] at hb
    rcases hb with ((((rfl | rfl) | rfl) | rfl) | rfl) | rfl <;> revert h <;> decide
  simp [lexPlain, h1, h2, h3, h]

/-- A word is read as one. -/
theorem lex_word (ts : List Token) (cs : List Char) (hne : cs ≠ []) (h : ∀ c ∈ cs, isWordChar c = true) :
    cs.foldl lexChar (ts, .plain) = (ts, .word cs.reverse) := by
  cases cs with
  | nil => exact absurd rfl hne
  | cons c cs =>
    simp only [List.foldl_cons, lexChar, isWordChar_plain (h c (by simp)) ts]
    rw [lex_wordChars _ _ _ fun c hc => h c (by simp [hc])]; simp

/-- A literal is not empty. -/
theorem intLiteral_ne_nil {cs : List Char} {v : Int} (h : IsIntLiteral cs v) : cs ≠ [] := by
  rintro rfl; have := (intLiteral_spec h).2; simp [wordToken] at this

/-- An integer literal, ended by a character outside words, is one token. -/
theorem lex_int {cs : List Char} {v : Int} (h : IsIntLiteral cs v) (ts : List Token) (d : Char)
    (hd : isWordChar d = false) (hq : d ≠ '"') (rest : List Char) :
    (cs ++ d :: rest).foldl lexChar (ts, .plain) = rest.foldl lexChar (lexPlain (.int v :: ts) d) := by
  obtain ⟨hw, ht⟩ := intLiteral_spec h
  rw [List.foldl_append, lex_word _ _ (intLiteral_ne_nil h) hw, List.foldl_cons]
  simp [lexChar, hd, hq, ht]

/-- An integer literal at the end of a line is its last token. -/
theorem lexLine_int {pre cs : List Char} {v : Int} {ts : List Token} (h : IsIntLiteral cs v)
    (hp : pre.foldl lexChar ([], .plain) = (ts, .plain)) :
    lexLine (pre ++ cs) = .ok (ts.reverse ++ [.int v]) := by
  obtain ⟨hw, ht⟩ := intLiteral_spec h
  simp [lexLine, List.foldl_append, hp, lex_word _ _ (intLiteral_ne_nil h) hw, ht]

/-- The tokens `toks` are what the lexer makes of `cs`, whatever stands before and after it. -/
def Lexes (cs : List Char) (toks : List Token) : Prop :=
  ∀ (ts : List Token) (rest : List Char),
    (cs ++ rest).foldl lexChar (ts, .plain) = rest.foldl lexChar (toks.reverse ++ ts, .plain)

/-- Closed text after closed text. -/
theorem Lexes.append {a b : List Char} {x y : List Token} (ha : Lexes a x) (hb : Lexes b y) :
    Lexes (a ++ b) (x ++ y) := by
  intro ts rest
  rw [List.append_assoc, ha, hb]; simp

/-- Like `Lexes`, for text whose last token may still be open: a character outside words, or the end of
the line, ends it. -/
def LexesOpen (cs : List Char) (toks : List Token) : Prop :=
  ∀ ts : List Token,
    (∀ (d : Char) (rest : List Char), isWordChar d = false → d ≠ '"' →
      (cs ++ d :: rest).foldl lexChar (ts, .plain) =
        rest.foldl lexChar (lexPlain (toks.reverse ++ ts) d)) ∧
    (∀ pre : List Char, pre.foldl lexChar ([], .plain) = (ts, .plain) →
      lexLine (pre ++ cs) = .ok (ts.reverse ++ toks))

/-- Closed text may stand where open text may. -/
theorem Lexes.toOpen {cs : List Char} {toks : List Token} (h : Lexes cs toks) : LexesOpen cs toks := by
  intro ts
  refine ⟨fun d rest _ _ => by rw [h, List.foldl_cons]; rfl, fun pre hp => ?_⟩
  have := h ts []
  simp only [List.append_nil, List.foldl_nil] at this
  simp [lexLine, List.foldl_append, hp, this]

/-- An integer literal is one token. -/
theorem lexesOpen_int {cs : List Char} {v : Int} (h : IsIntLiteral cs v) : LexesOpen cs [.int v] :=
  fun ts => ⟨fun d rest hd hq => lex_int h ts d hd hq rest, fun _ hp => lexLine_int h hp⟩

/-- A punctuation mark ends open text. -/
theorem LexesOpen.punct {cs : List Char} {toks : List Token} (h : LexesOpen cs toks) {d : Char}
    (hw : isWordChar d = false) (hq : d ≠ '"') (hd : ∀ ts, lexPlain ts d = (.punct d :: ts, .plain)) :
    Lexes (cs ++ [d]) (toks ++ [.punct d]) := by
  intro ts rest
  have := (h ts).1 d rest hw hq
  rw [List.append_assoc, List.singleton_append, this, hd]; simp

/-- Open text after closed text. -/
theorem Lexes.open_append {a b : List Char} {x y : List Token} (ha : Lexes a x) (hb : LexesOpen b y) :
    LexesOpen (a ++ b) (x ++ y) := by
  intro ts
  refine ⟨fun d rest hd hq => ?_, fun pre hp => ?_⟩
  · rw [List.append_assoc, ha, (hb _).1 d rest hd hq]; simp
  · rw [← List.append_assoc, (hb (x.reverse ++ ts)).2 (pre ++ a)]
    · simp
    · have := ha ts []
      simp only [List.append_nil, List.foldl_nil] at this
      rw [List.foldl_append, hp, this]

/-- The tokens of a line. -/
theorem LexesOpen.line {cs : List Char} {toks : List Token} (h : LexesOpen cs toks) : lexLine cs = .ok toks := by
  simpa using (h []).2 [] rfl

/-- What a reader answers for a literal of value `x`. -/
def readResult {α : Type} (x : Option α) (ts : List Token) : Except AsmError (α × List Token) :=
  match x with
  | some v => .ok (v, ts)
  | none => .error .outOfRange

/-- `cs` is text from which the reader `r` takes the value `x`. -/
def ReadAs {α : Type} (cs : List Char) (r : Reader α) (x : Option α) : Prop :=
  ∃ toks, LexesOpen cs toks ∧ ∀ ts, r (toks ++ ts) = readResult x ts

/-- A literal of an unsigned field, in range or out of it (30_encoding.md R83). -/
theorem readAs_unsigned {n : Nat} {cs : List Char} {x} (h : IsUnsignedLiteral n cs x) :
    ReadAs cs (readUnsigned n) x := by
  obtain ⟨v, hv, rfl⟩ := h
  refine ⟨_, lexesOpen_int hv, fun ts => ?_⟩
  have : ((v ≤ 2 ^ n - 1) ↔ v < 2 ^ n) := by omega
  simp only [readUnsigned, readInt, List.singleton_append, inField, this]
  split <;> simp_all [readResult, bind, Except.bind]

/-- A literal of the field `precision`. -/
theorem readAs_signed8 {cs : List Char} {x} (h : IsSigned8Literal cs x) :
    ReadAs cs readSigned8 x := by
  obtain ⟨v, hv, rfl⟩ := h
  refine ⟨_, lexesOpen_int hv, fun ts => ?_⟩
  simp only [readSigned8, readInt, List.singleton_append]
  split <;> simp_all [readResult, bind, Except.bind]

/-- A literal of a `Nat`. -/
theorem readAs_nat {cs : List Char} {x} (h : IsNatLiteral cs x) : ReadAs cs readNat x := by
  obtain ⟨v, hv, rfl⟩ := h
  refine ⟨_, lexesOpen_int hv, fun ts => ?_⟩
  simp only [readNat, List.singleton_append]
  split <;> simp_all [readResult]

/-- A punctuation mark is one token. -/
theorem Lexes.ofPunct (d : Char) (hd : ∀ ts, lexPlain ts d = (.punct d :: ts, .plain)) :
    Lexes [d] [.punct d] := fun ts rest => by simp [lexChar, hd]

/-- A name followed by an equals sign. -/
theorem lexes_name (nm : List Char) (hw : nm.all isWordChar = true)
    (ht : wordToken nm = some (.word nm)) : Lexes (nm ++ ['=']) [.word nm, .punct '='] := by
  intro ts rest
  have hne : nm ≠ [] := by rintro rfl; simp [wordToken] at ht
  rw [List.append_assoc, List.foldl_append, lex_word _ _ hne (List.all_eq_true.1 hw)]
  simp only [List.singleton_append, List.foldl_cons, lexChar, List.reverse_reverse, ht]
  rfl

/-- A further field `, <name>=<literal>` of a record literal. -/
theorem LexesOpen.field {a b : List Char} {x y : List Token} (ha : LexesOpen a x) (hb : LexesOpen b y)
    (nm : List Char) (hw : nm.all isWordChar = true) (ht : wordToken nm = some (.word nm)) :
    LexesOpen (a ++ ',' :: ' ' :: (nm ++ ['=']) ++ b)
      (x ++ .punct ',' :: .word nm :: .punct '=' :: y) := by
  have hb1 : Lexes [' '] [] := fun _ _ => rfl
  have := (ha.punct (d := ',') (by decide) (by decide) fun _ => rfl).open_append
    (hb1.open_append ((lexes_name nm hw ht).open_append hb))
  simpa using this

/-- A further operand or element, after a comma. -/
theorem LexesOpen.next {a b : List Char} {x y : List Token} (ha : LexesOpen a x) (hb : LexesOpen b y) :
    LexesOpen (a ++ ',' :: b) (x ++ .punct ',' :: y) := by
  have := (ha.punct (d := ',') (by decide) (by decide) fun _ => rfl).open_append hb
  simpa using this

/-- A further operand, after a comma and a blank. -/
theorem LexesOpen.blankNext {a b : List Char} {x y : List Token} (ha : LexesOpen a x) (hb : LexesOpen b y) :
    LexesOpen (a ++ ", ".toList ++ b) (x ++ .punct ',' :: y) := by
  have hb1 : Lexes [' '] [] := fun _ _ => rfl
  have := ha.next (hb1.open_append hb)
  simpa using this

/-- Text in braces is closed. -/
theorem LexesOpen.braced {a : List Char} {x : List Token} (ha : LexesOpen a x) :
    Lexes (braced a) (.punct openBrace :: x ++ [.punct closeBrace]) := by
  have := (Lexes.ofPunct openBrace fun _ => rfl).append
    (ha.punct (d := closeBrace) (by decide) (by decide) fun _ => rfl)
  simpa [Machine.braced, openBrace, closeBrace] using this

@[simp] theorem readField_tok {α : Type} (nm : String) (r : Reader α) (ts : List Token) :
    readField nm r (.word nm.toList :: .punct '=' :: ts) = r ts := by
  simp [readField, readPunct, bind, Except.bind]

@[simp] theorem readNextField_tok {α : Type} (nm : String) (r : Reader α) (ts : List Token) :
    readNextField nm r (.punct ',' :: .word nm.toList :: .punct '=' :: ts) = r ts := by
  have := readField_tok nm r ts
  simp [readNextField, readPunct, bind, Except.bind, -readField_tok, this]

@[simp] theorem readNext_tok {α : Type} (r : Reader α) (ts : List Token) :
    readNext r (.punct ',' :: ts) = r ts := by
  simp [readNext, readPunct, bind, Except.bind]

@[simp] theorem readPunct_tok (c : Char) (ts : List Token) : readPunct c (.punct c :: ts) = .ok ((), ts) := by
  simp [readPunct]

@[simp] theorem readResult_some {α : Type} (v : α) (ts) : readResult (some v) ts = .ok (v, ts) := rfl
@[simp] theorem readResult_none {α : Type} (ts) : readResult (none : Option α) ts = .error .outOfRange := rfl
@[simp] theorem ok_bind {α β : Type} (a : α) (f : α → Except AsmError β) : (Except.ok a >>= f) = f a := rfl
@[simp] theorem error_bind {α β : Type} (e) (f : α → Except AsmError β) : (Except.error e >>= f) = Except.error e := rfl

/-- A timestamp literal. -/
theorem readAs_timestamp {n : Nat} {cs x} (h : IsTimestampLiteral n cs x) :
    ReadAs cs (readTimestamp n) x := by
  obtain ⟨s, f, xs, xf, hs, hf, rfl, rfl⟩ := h
  obtain ⟨t1, l1, r1⟩ := readAs_unsigned hs
  obtain ⟨t2, l2, r2⟩ := readAs_unsigned hf
  have h := (((lexes_name "s".toList rfl rfl).open_append l1).field l2
    "f".toList rfl rfl).braced
  refine ⟨_, Lexes.toOpen h, fun ts => ?_⟩
  simp only [readTimestamp, List.append_assoc, List.cons_append, List.nil_append, readPunct_tok,
    ok_bind, readField_tok, r1]
  cases xs with
  | none => rfl
  | some a =>
  simp only [readResult_some, ok_bind, readNextField_tok, r2]
  cases xf <;> simp

/-- A 64-bit timestamp literal. -/
theorem readAs_ts64 {cs x} (h : IsTs64Literal cs x) : ReadAs cs readTs64 x := by
  obtain ⟨y, h, rfl⟩ := h
  obtain ⟨t, l, r⟩ := readAs_timestamp h
  exact ⟨t, l, fun ts => by simp only [readTs64, r]; cases y <;> simp⟩
/-- A 32-bit timestamp literal. -/
theorem readAs_ts32 {cs x} (h : IsTs32Literal cs x) : ReadAs cs readTs32 x := by
  obtain ⟨y, h, rfl⟩ := h
  obtain ⟨t, l, r⟩ := readAs_timestamp h
  exact ⟨t, l, fun ts => by simp only [readTs32, r]; cases y <;> simp⟩

/-- The opening fields of a flag and a packet literal. -/
theorem lexes_flags {cs x} (h : IsFlagText cs x) : ∃ toks, LexesOpen cs toks ∧
    ∀ ts, readFlagFields (.punct openBrace :: toks ++ ts) = readResult x ts := by
  obtain ⟨li, vn, mode, a, b, c, h1, h2, h3, rfl, rfl⟩ := h
  obtain ⟨t1, l1, r1⟩ := readAs_unsigned h1
  obtain ⟨t2, l2, r2⟩ := readAs_unsigned h2
  obtain ⟨t3, l3, r3⟩ := readAs_unsigned h3
  refine ⟨_, (((lexes_name "li".toList rfl rfl).open_append l1).field l2 "vn".toList rfl rfl).field
    l3 "mode".toList rfl rfl, fun ts => ?_⟩
  simp only [readFlagFields, List.append_assoc, List.cons_append, List.nil_append, readPunct_tok, ok_bind, readField_tok, r1]
  cases a <;> simp only [readResult_some, readResult_none, ok_bind, error_bind, readNextField_tok, r2] <;> try rfl
  cases b <;> simp only [readResult_some, readResult_none, ok_bind, error_bind, readNextField_tok, r3] <;> try rfl
  cases c <;> simp

/-- A flag-field literal. -/
theorem readAs_flags {cs x} (h : IsFlagsLiteral cs x) : ReadAs cs readFlags x := by
  obtain ⟨t, h, rfl⟩ := h
  obtain ⟨toks, l, r⟩ := lexes_flags h
  refine ⟨_, l.braced.toOpen, fun ts => ?_⟩
  rw [List.append_assoc]
  simp only [readFlags, r]
  cases x <;> simp

/-- A reference-ID literal. -/
theorem readAs_refId {cs x} (h : IsRefIdLiteral cs x) : ReadAs cs readRefId x := by
  obtain ⟨a0, a1, a2, a3, b0, b1, b2, b3, h0, h1, h2, h3, rfl, rfl⟩ := h
  obtain ⟨t0, l0, r0⟩ := readAs_unsigned h0
  obtain ⟨t1, l1, r1⟩ := readAs_unsigned h1
  obtain ⟨t2, l2, r2⟩ := readAs_unsigned h2
  obtain ⟨t3, l3, r3⟩ := readAs_unsigned h3
  have h := ((((Lexes.ofPunct '[' fun _ => rfl).open_append l0).next l1).next l2).next l3 |>.punct
    (d := ']') (by decide) (by decide) fun _ => rfl
  refine ⟨_, by simpa using h.toOpen, fun ts => ?_⟩
  simp only [readRefId, List.append_assoc, List.cons_append, List.nil_append, readPunct_tok, ok_bind, r0]
  cases b0 <;> simp only [readResult_some, readResult_none, ok_bind, error_bind, readNext_tok, r1] <;> try rfl
  cases b1 <;> simp only [readResult_some, readResult_none, ok_bind, error_bind, readNext_tok, r2] <;> try rfl
  cases b2 <;> simp only [readResult_some, readResult_none, ok_bind, error_bind, readNext_tok, r3] <;> try rfl
  cases b3 <;> simp

/-- A packet literal. -/
theorem readAs_packet {cs x} (h : IsPacketLiteral cs x) : ReadAs cs readPacket x := by
  obtain ⟨f, s, p, n, d, e, i, a1, a2, a3, a4, xf, xs, xp, xn, xd, xe, xi, x1, x2, x3, x4,
    hf, hs, hp, hn, hd, he, hi, h1, h2, h3, h4, rfl, rfl⟩ := h
  obtain ⟨tf, lf, rf⟩ := lexes_flags hf
  obtain ⟨ts_, ls, rs⟩ := readAs_unsigned hs
  obtain ⟨tp, lp, rp⟩ := readAs_unsigned hp
  obtain ⟨tn, ln, rn⟩ := readAs_signed8 hn
  obtain ⟨td, ld, rd⟩ := readAs_ts32 hd
  obtain ⟨te, le, re⟩ := readAs_ts32 he
  obtain ⟨ti, li, ri⟩ := readAs_refId hi
  obtain ⟨t1, l1, r1⟩ := readAs_ts64 h1
  obtain ⟨t2, l2, r2⟩ := readAs_ts64 h2
  obtain ⟨t3, l3, r3⟩ := readAs_ts64 h3
  obtain ⟨t4, l4, r4⟩ := readAs_ts64 h4
  refine ⟨_, (((((((((((lf.field ls "stratum".toList rfl rfl).field
    lp "poll".toList rfl rfl).field
    ln "precision".toList rfl rfl).field
    ld "rootDelay".toList rfl rfl).field
    le "rootDispersion".toList rfl rfl).field
    li "referenceId".toList rfl rfl).field
    l1 "reference".toList rfl rfl).field
    l2 "origin".toList rfl rfl).field
    l3 "receive".toList rfl rfl).field
    l4 "transmit".toList rfl rfl).braced).toOpen, fun ts => ?_⟩
  simp only [List.append_assoc, List.cons_append, List.nil_append]
  rw [← List.cons_append]
  simp only [readPacket, rf]
  cases xf <;> simp only [readResult_some, readResult_none, ok_bind, error_bind, readNextField_tok, rs] <;> try rfl
  cases xs <;> simp only [readResult_some, readResult_none, ok_bind, error_bind, readNextField_tok, rp] <;> try rfl
  cases xp <;> simp only [readResult_some, readResult_none, ok_bind, error_bind, readNextField_tok, rn] <;> try rfl
  cases xn <;> simp only [readResult_some, readResult_none, ok_bind, error_bind, readNextField_tok, rd] <;> try rfl
  cases xd <;> simp only [readResult_some, readResult_none, ok_bind, error_bind, readNextField_tok, re] <;> try rfl
  cases xe <;> simp only [readResult_some, readResult_none, ok_bind, error_bind, readNextField_tok, ri] <;> try rfl
  cases xi <;> simp only [readResult_some, readResult_none, ok_bind, error_bind, readNextField_tok, r1] <;> try rfl
  cases x1 <;> simp only [readResult_some, readResult_none, ok_bind, error_bind, readNextField_tok, r2] <;> try rfl
  cases x2 <;> simp only [readResult_some, readResult_none, ok_bind, error_bind, readNextField_tok, r3] <;> try rfl
  cases x3 <;> simp only [readResult_some, readResult_none, ok_bind, error_bind, readNextField_tok, r4] <;> try rfl
  cases x4 <;> simp

/-- The bytes of a byte sequence literal. -/
theorem hexText {cs : List Char} {bs : List Byte} (h : IsHexText cs bs) :
    hexBytesLiteral cs = some bs ∧ '"' ∉ cs := by
  induction bs generalizing cs with
  | nil => cases h; exact ⟨rfl, by simp⟩
  | cons b bs ih =>
    obtain ⟨c, d, rest, rfl, hc, hd, h⟩ := h
    obtain ⟨c1, c2, -, c3, -⟩ := hexDigit_of_isDigit (by decide) hc
    obtain ⟨d1, d2, -, d3, -⟩ := hexDigit_of_isDigit (by decide) hd
    have hb : isBlank c = false := by
      by_contra hb; simp only [isBlank, Bool.not_eq_false, Bool.or_eq_true, beq_iff_eq] at hb
      rcases hb with ((rfl | rfl) | rfl) | rfl <;> revert c2 <;> decide
    have hv : BitVec.ofNat 8 (16 * (b.toNat / 16) + b.toNat % 16) = b := by
      rw [Nat.div_add_mod]; simp
    rcases h with ⟨rfl, rfl⟩ | ⟨hne, tail, rfl, h⟩
    · simp [hexBytesLiteral, hb, c1, d1, hv, c3.symm, d3.symm]
    · obtain ⟨e, q⟩ := ih h
      have ht : tail ≠ [] := by
        rintro rfl; cases bs with
        | nil => exact hne rfl
        | cons _ _ => obtain ⟨_, _, _, h, -⟩ := h; cases h
      have : hexBytesLiteral (' ' :: tail) = hexBytesLiteral tail := by
        cases tail with
        | nil => exact absurd rfl ht
        | cons x xs => conv_lhs => unfold hexBytesLiteral
                       simp [isBlank]
      conv => left; lhs; unfold hexBytesLiteral
      simp [hb, c1, d1, hv, c3.symm, d3.symm, this, e, q]

/-- A byte sequence literal. -/
theorem readAs_bytes {cs bs} (h : IsBytesLiteral cs bs) : ReadAs cs readBytes (some bs) := by
  obtain ⟨text, h, rfl⟩ := h
  obtain ⟨e, q⟩ := hexText h
  refine ⟨[.bytes bs], Lexes.toOpen fun ts rest => ?_, fun ts => rfl⟩
  have key : ∀ (t : List Char) acc, '"' ∉ t →
      t.foldl lexChar (ts, .hexBytes acc) = (ts, .hexBytes (t.reverse ++ acc)) := by
    intro t; induction t with
    | nil => intro acc _; rfl
    | cons c t ih =>
      intro acc hq
      simp only [List.mem_cons, not_or] at hq
      have : (c == '"') = false := by simpa using fun h => hq.1 h.symm
      simp only [List.foldl_cons, lexChar, this]
      rw [if_neg (by decide), ih _ hq.2]; simp
  have h0 : "hex\"".toList.foldl lexChar (ts, .plain) = (ts, .hexBytes []) := rfl
  rw [List.append_assoc, List.append_assoc, List.foldl_append, h0, List.foldl_append, key _ _ q]
  simp [lexChar, e]


/-- What a line assembles to, from its tokens. -/
theorem assembleLine_of {cs toks w rest} (h : LexesOpen cs toks) (ht : toks = .word w :: rest) :
    assembleLine (String.ofList cs) = lineActions (w.map Char.toLower) rest := by
  subst ht
  simp only [assembleLine, String.toList_ofList, h.line, ok_bind]

/-- The last operand of a line. -/
theorem readLast_result {α : Type} {r : Reader α} {x : Option α} {toks}
    (h : ∀ ts, r (toks ++ ts) = readResult x ts) :
    readLast r toks = match x with | some v => .ok v | none => .error .outOfRange := by
  have := h []
  rw [List.append_nil] at this
  rw [readLast, this]; cases x <;> simp

/-- A host program is its first line and the rest. -/
theorem assemble_cons (l : String) (ls) : assemble (l :: ls) = (do
    let a ← assembleLine l
    let b ← assemble ls
    .ok (a ++ b)) := by
  simp only [assemble, List.mapM_cons]
  cases assembleLine l with
  | error e => rfl
  | ok a => simp only [ok_bind]; cases List.mapM assembleLine ls <;> rfl

end Sys2Proof.Machine
end

