-- ==== Sys2Proof/Laws/State.lean ====
section
/-! SUPPORT. What each named update of the state leaves in each field, so that no proof unfolds a record
update. -/

namespace Sys2Proof.Machine

section Updates
variable (s : State) (bit : BitVec 8) (st : Status) (r : Results) (b : Option (BitVec 8)) (f : Frame)

@[simp] theorem raiseFault_config : (raiseFault bit s).config = s.config := rfl
@[simp] theorem raiseFault_operands : (raiseFault bit s).operands = s.operands := rfl
@[simp] theorem raiseFault_results : (raiseFault bit s).results = s.results := rfl
@[simp] theorem raiseFault_status : (raiseFault bit s).status = s.status := rfl
@[simp] theorem raiseFault_faults : (raiseFault bit s).faults = s.faults ||| bit := rfl
@[simp] theorem raiseFault_program : (raiseFault bit s).run.program = s.run.program := rfl
@[simp] theorem raiseFault_h : (raiseFault bit s).run.h = s.run.h := rfl
@[simp] theorem raiseFault_faulted : (raiseFault bit s).run.faulted = true := rfl
@[simp] theorem raiseFault_readValue : (raiseFault bit s).run.readValue = s.run.readValue := rfl

@[simp] theorem endCommand_config : (endCommand st s).config = s.config := rfl
@[simp] theorem endCommand_operands : (endCommand st s).operands = s.operands := rfl
@[simp] theorem endCommand_results : (endCommand st s).results = s.results := rfl
@[simp] theorem endCommand_status : (endCommand st s).status = st := rfl
@[simp] theorem endCommand_faults : (endCommand st s).faults = s.faults := rfl
@[simp] theorem endCommand_run : (endCommand st s).run = s.run := rfl

@[simp] theorem complete_config : (complete r s).config = s.config := rfl
@[simp] theorem complete_operands : (complete r s).operands = s.operands := rfl
@[simp] theorem complete_results : (complete r s).results = r := rfl
@[simp] theorem complete_status : (complete r s).status = .ok := rfl
@[simp] theorem complete_faults : (complete r s).faults = s.faults := rfl
@[simp] theorem complete_run : (complete r s).run = s.run := rfl

@[simp] theorem failCommand_config : (failCommand st b r s).config = s.config := by cases b <;> rfl
@[simp] theorem failCommand_operands : (failCommand st b r s).operands = s.operands := by
  cases b <;> rfl
@[simp] theorem failCommand_results : (failCommand st b r s).results = r := by cases b <;> rfl
@[simp] theorem failCommand_status : (failCommand st b r s).status = st := rfl
@[simp] theorem failCommand_faults_none : (failCommand st none r s).faults = s.faults := rfl
@[simp] theorem failCommand_faults_some :
    (failCommand st (some bit) r s).faults = s.faults ||| bit := rfl
@[simp] theorem failCommand_run_none : (failCommand st none r s).run = s.run := rfl
@[simp] theorem failCommand_run_some :
    (failCommand st (some bit) r s).run = { s.run with faulted := true } := rfl

@[simp] theorem resetBlock_config : (resetBlock s).config = s.config := rfl
@[simp] theorem resetBlock_operands : (resetBlock s).operands = .reset := rfl
@[simp] theorem resetBlock_results : (resetBlock s).results = .reset := rfl
@[simp] theorem resetBlock_status : (resetBlock s).status = .none := rfl
@[simp] theorem resetBlock_faults : (resetBlock s).faults = 0 := rfl
@[simp] theorem resetBlock_run : (resetBlock s).run = s.run := rfl

@[simp] theorem advance_config : (advance s).config = s.config := rfl
@[simp] theorem advance_operands : (advance s).operands = s.operands := rfl
@[simp] theorem advance_results : (advance s).results = s.results := rfl
@[simp] theorem advance_status : (advance s).status = s.status := rfl
@[simp] theorem advance_faults : (advance s).faults = s.faults := rfl
@[simp] theorem advance_program : (advance s).run.program = s.run.program := rfl
@[simp] theorem advance_h : (advance s).run.h = s.run.h + 1 := rfl
@[simp] theorem advance_faulted : (advance s).run.faulted = s.run.faulted := rfl
@[simp] theorem advance_readValue : (advance s).run.readValue = s.run.readValue := rfl

@[simp] theorem storeFrame_frameOut : (storeFrame f r).frameOut = .holds f := rfl
@[simp] theorem storeFrame_pktOut : (storeFrame f r).pktOut = r.pktOut := rfl
@[simp] theorem storeFrame_offOut : (storeFrame f r).offOut = r.offOut := rfl
@[simp] theorem storeFrame_localOut : (storeFrame f r).localOut = r.localOut := rfl
@[simp] theorem storeFrame_nanosOut : (storeFrame f r).nanosOut = r.nanosOut := rfl
@[simp] theorem storeFrame_flagsOut : (storeFrame f r).flagsOut = r.flagsOut := rfl
@[simp] theorem storeFrame_fldOut : (storeFrame f r).fldOut = r.fldOut := rfl
@[simp] theorem storeFrame_textOut : (storeFrame f r).textOut = r.textOut := rfl

@[simp] theorem resetWith_config (c : Config) : (State.resetWith c).config = c := rfl
@[simp] theorem resetWith_operands (c : Config) : (State.resetWith c).operands = .reset := rfl
@[simp] theorem resetWith_results (c : Config) : (State.resetWith c).results = .reset := rfl
@[simp] theorem resetWith_status (c : Config) : (State.resetWith c).status = .none := rfl
@[simp] theorem resetWith_faults (c : Config) : (State.resetWith c).faults = 0 := rfl
@[simp] theorem resetWith_run (c : Config) : (State.resetWith c).run = .start [] := rfl

@[simp] theorem startProgram_config (p : List HostAction) : (startProgram p s).config = s.config := rfl
@[simp] theorem startProgram_operands (p : List HostAction) :
    (startProgram p s).operands = s.operands := rfl
@[simp] theorem startProgram_results (p : List HostAction) :
    (startProgram p s).results = s.results := rfl
@[simp] theorem startProgram_status (p : List HostAction) : (startProgram p s).status = s.status := rfl
@[simp] theorem startProgram_faults (p : List HostAction) : (startProgram p s).faults = s.faults := rfl
@[simp] theorem startProgram_run (p : List HostAction) : (startProgram p s).run = .start p := rfl

end Updates

section Slots
variable {α β : Type} (v : α) (g : α → β) (p : Slot α)

@[simp] theorem Slot.written_unwritten : (Slot.unwritten : Slot α).written = false := rfl
@[simp] theorem Slot.written_holds : (Slot.holds v).written = true := rfl
@[simp] theorem Slot.map_unwritten : (Slot.unwritten : Slot α).map g = .unwritten := rfl
@[simp] theorem Slot.map_holds : (Slot.holds v).map g = .holds (g v) := rfl
@[simp] theorem Slot.written_map : (p.map g).written = p.written := by cases p <;> rfl

/-- A set `written` bit has a value beside it. -/
theorem Slot.written_iff : p.written = true ↔ ∃ w, p = .holds w := by
  cases p <;> simp

end Slots

end Sys2Proof.Machine
end

