-- ==== Sys2Proof/Laws/Ops.lean ====
section
/-! SUPPORT. One lemma per shared operation, saying what it can do, for proofs to cite instead of
unfolding it; and the inversion lemmas of a command, a host action and a step. -/

namespace Sys2Proof.Machine

/-- A transition of an instance answers its next state exactly when the configuration is admitted. -/
theorem underConfig_next_iff {s t u : State} :
    underConfig s t = .next u ↔ admitted s.config = true ∧ t = u := by
  unfold underConfig; split <;> simp_all

/-- Under an admitted configuration a transition happens. -/
theorem underConfig_admitted {s t : State} (h : admitted s.config = true) :
    underConfig s t = .next t := by simp [underConfig, h]

/-- Under another configuration it is refused (60_exceptions.md R205). -/
theorem underConfig_refused {s t : State} (h : admitted s.config = false) :
    underConfig s t = .refused .configurationRefused := by simp [underConfig, h]

/-- The four conditions of 00_scope.md R10. -/
theorem admitted_iff {c : Config} : admitted c = true ↔
    1 ≤ c.unitsPerSecond ∧ c.unitsPerSecond ≤ 2 ^ 32 ∧ -2 ^ 63 ≤ c.epochOffset ∧
      largestLocal c ≤ 2 ^ 63 - 1 := by
  simp [admitted, Bool.and_eq_true, and_assoc]

@[simp] theorem requireWritten_holds {α : Type} (i : Instr) (v : α) (s : State) (k : α → State) :
    requireWritten i (.holds v) s k = k v := rfl

@[simp] theorem requireWritten_unwritten {α : Type} (i : Instr) (s : State) (k : α → State) :
    requireWritten i .unwritten s k = raiseUnwrittenPort i s := rfl

/-- `require_written` goes on with the value, or ends the command (60_exceptions.md R203). -/
theorem requireWritten_cases {α : Type} (i : Instr) (p : Slot α) (s : State) (k : α → State) :
    (∃ v, p = .holds v ∧ requireWritten i p s k = k v) ∨
      (p = .unwritten ∧ requireWritten i p s k = raiseUnwrittenPort i s) := by
  cases p <;> simp

/-- An outcome with its next state changed is a next state only of a next state. -/
theorem mapNext_next_iff {f : State → State} {o : Outcome} {t : State} :
    mapNext f o = .next t ↔ ∃ u, o = .next u ∧ f u = t := by
  cases o <;> simp [mapNext]

@[simp] theorem mapNext_next (f : State → State) (s : State) :
    mapNext f (.next s : Outcome) = .next (f s) := rfl

/-- Byte `i` of the frame read at `o` is buffer byte `o + i` (20_memory.md R56). -/
theorem readFrame_getElem (buf : List Byte) (o : Nat) (h : o + frameLen ≤ buf.length)
    (i : Nat) (hi : i < frameLen) : (readFrame buf o h)[i] = buf[o + i] := by
  simp [readFrame, memRead]

/-- Writing the bytes of `f` at some offsets: those offsets hold `f`, the others what they held. -/
theorem foldl_memWrite_getElem (f : Frame) (i : Nat) (hi : i < frameLen) (l : List (Fin frameLen)) :
    ∀ g : Frame, (l.foldl (fun g a => memWrite g a (f.get a)) g)[i] =
      if (⟨i, hi⟩ : Fin frameLen) ∈ l then f[i] else g[i] := by
  induction l with
  | nil => intro g; rw [List.foldl_nil, if_neg List.not_mem_nil]
  | cons a l ih =>
    intro g
    rw [List.foldl_cons, ih]
    by_cases hl : (⟨i, hi⟩ : Fin frameLen) ∈ l
    · rw [if_pos hl, if_pos (List.mem_cons_of_mem _ hl)]
    · rw [if_neg hl]
      by_cases ha : (⟨i, hi⟩ : Fin frameLen) = a
      · rw [if_pos (List.mem_cons.2 (.inl ha)), memWrite, ← ha, Vector.getElem_set_self]
        rfl
      · rw [if_neg (fun h => (List.mem_cons.1 h).elim ha hl), memWrite,
          Vector.getElem_set_ne _ _ (fun e => ha (Fin.ext e.symm))]

/-- The 48 writes of `for a in 0 .. 47: MemWrite(FRAME_OUT, a, 1, f[a])` leave `f`, whatever the frame
held: "No byte keeps an earlier value" (20_memory.md R58). -/
theorem frame_of_memWrites (old f : Frame) :
    (List.finRange frameLen).foldl (fun g a => memWrite g a (f.get a)) old = f := by
  refine Vector.ext fun i hi => ?_
  rw [foldl_memWrite_getElem f i hi, if_pos (List.mem_finRange _)]

/-- What a command can do (60_exceptions.md R200): it completes, ends with UNWRITTEN_PORT, or, DECODE
only, ends with TRUNCATED_PACKET. Operand ports, configuration and host run are those of `s`. -/
theorem exec_next_cases {i : Instr} {s t : State} (h : exec i s = .next t) :
    admitted s.config = true ∧
      ((∃ r, t = complete r s ∧ clearResults i r = clearResults i s.results) ∨
        t = raiseUnwrittenPort i s ∨ (i = .decode ∧ t = raiseTruncatedPacket s)) := by
  cases i <;>
    simp only [exec, execEncode, execDecode, execBuildRequest, execFlagsPack, execFlagsUnpack,
      execTs64ToLocal, execTs32ToNanos, execRefidRender, underConfig_next_iff] at h <;>
    obtain ⟨hc, rfl⟩ := h <;> refine ⟨hc, ?_⟩
  case encode => cases s.operands.pktIn with
    | unwritten => exact .inr (.inl rfl)
    | holds p => exact .inl ⟨_, rfl, rfl⟩
  case decode => cases s.operands.bufIn with
    | unwritten => exact .inr (.inl rfl)
    | holds buf => cases s.operands.offIn with
      | unwritten => exact .inr (.inl rfl)
      | holds o =>
        rw [requireWritten_holds, requireWritten_holds]
        split
        · exact .inl ⟨_, rfl, rfl⟩
        · exact .inr (.inr ⟨rfl, rfl⟩)
  case buildRequest => exact .inl ⟨_, rfl, rfl⟩
  case flagsPack => cases s.operands.fldIn with
    | unwritten => exact .inr (.inl rfl)
    | holds f => exact .inl ⟨_, rfl, rfl⟩
  case flagsUnpack => cases s.operands.byteIn with
    | unwritten => exact .inr (.inl rfl)
    | holds b => exact .inl ⟨_, rfl, rfl⟩
  case ts64ToLocal => cases s.operands.ts64In with
    | unwritten => exact .inr (.inl rfl)
    | holds t => exact .inl ⟨_, rfl, rfl⟩
  case ts32ToNanos => cases s.operands.ts32In with
    | unwritten => exact .inr (.inl rfl)
    | holds d => exact .inl ⟨_, rfl, rfl⟩
  case refidRender => cases s.operands.stratumIn with
    | unwritten => exact .inr (.inl rfl)
    | holds st => cases s.operands.refidIn with
      | unwritten => exact .inr (.inl rfl)
      | holds r => exact .inl ⟨_, rfl, rfl⟩

/-- What an ISSUE can do (10_state.md R41): run the operation its word names, or raise
`IllegalCommand`. -/
theorem issueCommand_cases (w : Byte) (s : State) :
    (∃ i, decode w = .ok i ∧ issueCommand w s = exec i s) ∨
      (∃ e, decode w = .error e ∧ issueCommand w s = underConfig s (raiseIllegalCommand s)) := by
  unfold issueCommand
  cases h : decode w with
  | ok i => exact .inl ⟨i, rfl, rfl⟩
  | error e => exact .inr ⟨e, rfl, rfl⟩

/-- What a WRITE can do (10_state.md R40, R41): store an operand, or issue a command through CMD. -/
theorem writePort_next_cases {n : Byte} {v : PortValue} {s t : State}
    (h : writePort n v s = .next t) :
    (∃ w, portOfNumber n = some .cmd ∧ v = .byte w ∧ issueCommand w s = .next t) ∨
      (∃ p o, portOfNumber n = some p ∧ writeOperand s.operands p v = some o ∧
        admitted s.config = true ∧ t = { s with operands := o }) := by
  unfold writePort at h
  split at h
  · cases h
  · rename_i hp
    split at h
    · exact .inl ⟨_, hp, rfl, h⟩
    · cases h
  · rename_i p _ hp
    split at h
    · rename_i o ho
      obtain ⟨hc, rfl⟩ := underConfig_next_iff.1 h
      exact .inr ⟨p, o, hp, ho, hc, rfl⟩
    · cases h

/-- What a READ can do (10_state.md R42): give the value to the host, or raise `UnwrittenPort`. -/
theorem readPort_next_cases {n : Byte} {s t : State} (h : readPort n s = .next t) :
    admitted s.config = true ∧ ∃ p, portOfNumber n = some p ∧
      ((∃ v, portSlot s p = some (.holds v) ∧
          t = { s with run := { s.run with readValue := some v } }) ∨
        (portSlot s p = some .unwritten ∧
          t = raiseFault unwrittenPortBit { s with run := { s.run with readValue := none } })) := by
  unfold readPort at h
  cases hp : portOfNumber n with
  | none => simp [hp] at h
  | some p =>
    cases hs : portSlot s p with
    | none => simp [hp, hs] at h
    | some slot =>
      rw [hp, Option.bind_some, hs] at h
      cases slot with
      | unwritten =>
        obtain ⟨hc, rfl⟩ := underConfig_next_iff.1 h
        exact ⟨hc, p, rfl, .inr ⟨hs, rfl⟩⟩
      | holds v =>
        obtain ⟨hc, rfl⟩ := underConfig_next_iff.1 h
        exact ⟨hc, p, rfl, .inl ⟨v, hs, rfl⟩⟩

/-- What a step can do (10_state.md R45): take the action at the host index, under an admitted
configuration, and advance the index. -/
theorem step_next_cases {s t : State} (h : step s = .next t) :
    admitted s.config = true ∧ ∃ a u, nextAction s = some a ∧ act a s = .next u ∧ t = advance u := by
  unfold step runNextAction at h
  split at h
  · rename_i hc
    refine ⟨hc, ?_⟩
    split at h
    · rename_i a ha
      obtain ⟨u, hu, rfl⟩ := mapNext_next_iff.1 h
      exact ⟨a, u, ha, hu, rfl⟩
    · cases h
  · cases h

/-- The action `placeAction` places is the one the next step takes. -/
theorem nextAction_placeAction (a : HostAction) (s : State) :
    nextAction (placeAction a s) = some a := by
  simp only [nextAction, placeAction]
  rw [List.getElem?_append_right (by simp)]
  simp

/-- Every result of TS64_TO_LOCAL lies between `E` and the largest one (42_timestamp.md R161). -/
theorem localTime_range (c : Config) (t : NtpTimestamp64) :
    c.epochOffset ≤ localTime c t ∧ localTime c t ≤ largestLocal c := by
  have hs : t.seconds.toNat * c.unitsPerSecond ≤ (2 ^ 32 - 1) * c.unitsPerSecond :=
    Nat.mul_le_mul_right _ (by have := t.seconds.isLt; omega)
  have hf : t.fraction.toNat * c.unitsPerSecond / 2 ^ 32 ≤ (2 ^ 32 - 1) * c.unitsPerSecond / 2 ^ 32 :=
    Nat.div_le_div_right (Nat.mul_le_mul_right _ (by have := t.fraction.isLt; omega))
  simp only [localTime, largestLocal]
  constructor <;> omega

/-- Under an admitted configuration `r as s64` loses nothing (42_timestamp.md R161, 00_scope.md R10). -/
theorem toLocal_toInt {c : Config} (h : admitted c = true) (t : NtpTimestamp64) :
    (toLocal c t).toInt = localTime c t := by
  obtain ⟨-, -, hlo, hhi⟩ := admitted_iff.1 h
  obtain ⟨h1, h2⟩ := localTime_range c t
  rw [toLocal, BitVec.toInt_ofInt, Int.bmod_def]
  norm_num at *
  split <;> omega

/-- The largest result of TS32_TO_NANOS (42_timestamp.md R162). -/
theorem nanos_le (d : NtpTimestamp32) : nanos d ≤ 65535999984741 := by
  have := d.seconds.isLt
  have := d.fraction.isLt
  simp only [nanos]
  omega

/-- NANOS_OUT holds the exact count (42_timestamp.md R162). -/
theorem toNanos_toNat (d : NtpTimestamp32) : (toNanos d).toNat = nanos d := by
  have := nanos_le d
  simp only [toNanos, BitVec.toNat_ofNat]
  omega

/-- A decimal numeral of a byte has one to three digits (43_refid.md R182). -/
theorem decimal_length (x : Byte) : 1 ≤ (decimal x).length ∧ (decimal x).length ≤ 3 := by
  unfold decimal
  dsimp only
  split
  · simp
  · split <;> simp

end Sys2Proof.Machine
end

