-- ==== Sys2Proof/Laws/PerInstr.lean ====
section
/-! SUPPORT. Statements made for all instructions, one lemma per constructor. -/

/-- The command word of an operation (30_encoding.md R70, R71): its `rsv` bits are zero, its `op` bits are
the operation's, and decoding it gives the operation back. -/
def Sys2Proof.Laws.CommandWord.Statement (i : Sys2Proof.Instr) : Prop :=
  i.wellFormed = true ∧ Sys2Proof.rsvField (Sys2Proof.encode i) = 0 ∧
    Sys2Proof.opField (Sys2Proof.encode i) = Sys2Proof.opCode i ∧
    Sys2Proof.decode (Sys2Proof.encode i) = .ok i

theorem Sys2Proof.Laws.CommandWord.encode : Sys2Proof.Laws.CommandWord.Statement .encode :=
  ⟨rfl, rfl, rfl, rfl⟩

theorem Sys2Proof.Laws.CommandWord.decode : Sys2Proof.Laws.CommandWord.Statement .decode :=
  ⟨rfl, rfl, rfl, rfl⟩

theorem Sys2Proof.Laws.CommandWord.buildRequest :
    Sys2Proof.Laws.CommandWord.Statement .buildRequest := ⟨rfl, rfl, rfl, rfl⟩

theorem Sys2Proof.Laws.CommandWord.flagsPack : Sys2Proof.Laws.CommandWord.Statement .flagsPack :=
  ⟨rfl, rfl, rfl, rfl⟩

theorem Sys2Proof.Laws.CommandWord.flagsUnpack :
    Sys2Proof.Laws.CommandWord.Statement .flagsUnpack := ⟨rfl, rfl, rfl, rfl⟩

theorem Sys2Proof.Laws.CommandWord.ts64ToLocal :
    Sys2Proof.Laws.CommandWord.Statement .ts64ToLocal := ⟨rfl, rfl, rfl, rfl⟩

theorem Sys2Proof.Laws.CommandWord.ts32ToNanos :
    Sys2Proof.Laws.CommandWord.Statement .ts32ToNanos := ⟨rfl, rfl, rfl, rfl⟩

theorem Sys2Proof.Laws.CommandWord.refidRender :
    Sys2Proof.Laws.CommandWord.Statement .refidRender := ⟨rfl, rfl, rfl, rfl⟩
end

