-- ==== Sys2Proof/Tests/Slice0.lean ====
section
/-! SUPPORT. The model's own tests: expected values from spec/95_test_vectors.md and the rules' own corner
cases, one step each; and for every statement with hypotheses a concrete state that meets them. -/

namespace Sys2Proof.Tests

open Sys2Proof.Machine

/-- The next state of an outcome, if it has one. -/
def nextOf : Outcome → Option State
  | .next s => some s
  | .fault _ => none
  | .refused _ => none

/-- The refusal of an outcome, if it is one. -/
def refusalOf : Outcome → Option Refusal
  | .refused r => some r
  | .next _ => none
  | .fault _ => none

/-- The reset state under a configuration, with some operand ports written. -/
def withOperands (c : Config) (o : Operands) : State := { State.resetWith c with operands := o }

/-- The reset state under CFG-A, about to take one action. -/
def before (a : HostAction) : State := startProgram [a] .reset

/-- Packet SRV of V-FR-1. -/
def srv : NtpPacket :=
  { leapIndicator := 0, version := 4, mode := 4, stratum := 1, poll := 6, precision := -20
    rootDelay := ⟨0, 0x0010⟩, rootDispersion := ⟨0, 0x0020⟩, referenceId := #v[0x47, 0x50, 0x53, 0]
    reference := ⟨0xE8A1B2C0, 0⟩, origin := ⟨0, 0⟩
    receive := ⟨0xE8A1B2C4, 0x80000000⟩, transmit := ⟨0xE8A1B2C4, 0x80010000⟩ }

/-- The bytes of V-FR-1. -/
def srvBytes : List Byte :=
  [0x24, 0x01, 0x06, 0xec, 0x00, 0x00, 0x00, 0x10, 0x00, 0x00, 0x00, 0x20, 0x47, 0x50, 0x53, 0x00] ++
  [0xe8, 0xa1, 0xb2, 0xc0, 0x00, 0x00, 0x00, 0x00, 0x00, 0x00, 0x00, 0x00, 0x00, 0x00, 0x00, 0x00] ++
  [0xe8, 0xa1, 0xb2, 0xc4, 0x80, 0x00, 0x00, 0x00, 0xe8, 0xa1, 0xb2, 0xc4, 0x80, 0x01, 0x00, 0x00]

/-- Packet S2 of V-FR-2. -/
def s2 : NtpPacket :=
  { leapIndicator := 3, version := 4, mode := 4, stratum := 2, poll := 10, precision := -128
    rootDelay := ⟨1, 0x8000⟩, rootDispersion := ⟨0xFFFF, 0xFFFF⟩, referenceId := #v[192, 0, 2, 1]
    reference := ⟨0xFFFFFFFF, 0xFFFFFFFF⟩, origin := ⟨0x01234567, 0x89ABCDEF⟩
    receive := ⟨0, 1⟩, transmit := ⟨0x80000000, 0⟩ }

/-- The bytes of V-FR-2. -/
def s2Bytes : List Byte :=
  [0xe4, 0x02, 0x0a, 0x80, 0x00, 0x01, 0x80, 0x00, 0xff, 0xff, 0xff, 0xff, 0xc0, 0x00, 0x02, 0x01] ++
  [0xff, 0xff, 0xff, 0xff, 0xff, 0xff, 0xff, 0xff, 0x01, 0x23, 0x45, 0x67, 0x89, 0xab, 0xcd, 0xef] ++
  [0x00, 0x00, 0x00, 0x00, 0x00, 0x00, 0x00, 0x01, 0x80, 0x00, 0x00, 0x00, 0x00, 0x00, 0x00, 0x00]

/-- DECODE's operands: a buffer and an offset. -/
def decodeOperands (buf : List Byte) (o : Nat) : Operands :=
  { Operands.reset with bufIn := .holds buf, offIn := .holds o }

/-- REFID_RENDER's operands. -/
def renderOperands (st : Byte) (r : RefId) : Operands :=
  { Operands.reset with stratumIn := .holds st, refidIn := .holds r }

/-! ## Decoding (30_encoding.md R70 to R73; V-CMD) -/

/-- Each word is written bit by bit, `rsv = 0000` and then `op` (30_encoding.md R70, R71). -/
theorem test_decode_encode_word : decode 0b0000_0001 = .ok .encode := by decide
theorem test_decode_decode_word : decode 0b0000_0010 = .ok .decode := by decide
theorem test_decode_buildRequest_word : decode 0b0000_0011 = .ok .buildRequest := by decide
theorem test_decode_flagsPack_word : decode 0b0000_0100 = .ok .flagsPack := by decide
theorem test_decode_flagsUnpack_word : decode 0b0000_0101 = .ok .flagsUnpack := by decide
theorem test_decode_ts64ToLocal_word : decode 0b0000_0110 = .ok .ts64ToLocal := by decide
theorem test_decode_ts32ToNanos_word : decode 0b0000_0111 = .ok .ts32ToNanos := by decide
theorem test_decode_refidRender_word : decode 0b0000_1000 = .ok .refidRender := by decide

/-- The illegal words of V-CMD. -/
theorem test_decode_rejects_by_name :
    decode 0x00 = .error (.reservedOp 0x00) ∧ decode 0x09 = .error (.reservedOp 0x09) ∧
    decode 0x0F = .error (.reservedOp 0x0F) ∧ decode 0x10 = .error (.reservedBits 0x10) ∧
    decode 0x11 = .error (.reservedBits 0x11) ∧ decode 0x81 = .error (.reservedBits 0x81) ∧
    decode 0xF2 = .error (.reservedBits 0xF2) ∧ decode 0xFF = .error (.reservedBits 0xFF) := by
  decide

/-- The host's entry points agree with the decoder, and a fetched word runs at once from reset. -/
theorem test_fetch_word_runs_first :
    decodeTableWord 8 0x03 = some .buildRequest ∧ decodeTableWord 8 0x19 = none ∧
    (nextOf (step (State.reset.withFetchWord 8 0x03))).map (fun s => (s.status, s.run.h)) =
      some (.ok, 1) := by decide

/-! ## Ill-formed terms, refused (00_scope.md R10; 10_state.md R44; V-TS configuration check) -/

theorem test_config_refuses_unit_zero : admitted ⟨0, 0⟩ = false := by decide
theorem test_config_refuses_unit_too_large : admitted ⟨2 ^ 32 + 1, 0⟩ = false := by decide
theorem test_config_refuses_offset_too_low : admitted ⟨1, -2 ^ 63 - 1⟩ = false := by decide
theorem test_config_refuses_overflow :
    admitted ⟨2 ^ 32, 0⟩ = false ∧ admitted ⟨1, 2 ^ 63 - 1⟩ = false ∧
    admitted ⟨10 ^ 9, 9435484800000000000⟩ = false := by decide
theorem test_config_admits_examples :
    admitted .exampleA = true ∧ admitted .exampleB = true ∧
    admitted ⟨1, 2 ^ 63 - 1 - (2 ^ 32 - 1)⟩ = true := by decide

/-- No move: a write to STATUS, CONFIG_U or a result register, a value of another type, an unmapped
number, a read of CMD (10_state.md R44). -/
theorem test_host_access_without_move :
    (HostAction.write 0x01 (.byte 0)).allowed = false ∧
    (HostAction.write 0x03 (.nat 1)).allowed = false ∧
    (HostAction.write 0x20 (.bytes [])).allowed = false ∧
    (HostAction.write 0x12 (.byte 0)).allowed = false ∧
    (HostAction.write 0x05 (.byte 0)).allowed = false ∧
    (HostAction.write 0x00 (.nat 1)).allowed = false ∧
    (HostAction.read 0x00).allowed = false ∧ (HostAction.read 0x28).allowed = false := by decide

/-- Every instruction is well formed: a command word has no operand (30_encoding.md R70). -/
theorem test_every_instr_wellFormed : Instr.all.all Instr.wellFormed = true := by decide

/-! ## FLAGS_PACK and FLAGS_UNPACK (V-BP) -/

theorem test_flagsPack_vectors :
    [packFlags ⟨0, 0, 0⟩, packFlags ⟨0, 4, 3⟩, packFlags ⟨0, 4, 4⟩, packFlags ⟨3, 4, 3⟩,
      packFlags ⟨3, 7, 7⟩, packFlags ⟨3, 0, 0⟩, packFlags ⟨0, 7, 0⟩, packFlags ⟨0, 0, 7⟩] =
    [0x00, 0x23, 0x24, 0xE3, 0xFF, 0xC0, 0x38, 0x07] := by decide

theorem test_flagsPack_step :
    (nextOf (exec .flagsPack (withOperands .exampleA
      { Operands.reset with fldIn := .holds ⟨3, 4, 3⟩ }))).map
      (fun s => (s.results.flagsOut, s.status)) = some (.holds 0xE3, .ok) := by decide

theorem test_flagsUnpack_vectors :
    [unpackFlags 0xE3, unpackFlags 0x1B, unpackFlags 0x24, unpackFlags 0xFF, unpackFlags 0x00,
      unpackFlags 0xE4] =
    [⟨3, 4, 3⟩, ⟨0, 3, 3⟩, ⟨0, 4, 4⟩, ⟨3, 7, 7⟩, ⟨0, 0, 0⟩, ⟨3, 4, 4⟩] := by decide

theorem test_flagsUnpack_step :
    (nextOf (exec .flagsUnpack (withOperands .exampleA
      { Operands.reset with byteIn := .holds 0xE3 }))).map
      (fun s => (s.results.fldOut, s.status)) = some (.holds ⟨3, 4, 3⟩, .ok) := by decide

/-- The primitives of V-BP. -/
theorem test_primitives :
    putBe16 0x1234 = [0x12, 0x34] ∧ putBe32 0xE8A1B2C4 = [0xe8, 0xa1, 0xb2, 0xc4] ∧
    getBe16 0x12 0x34 = 0x1234 ∧ putTs32 ⟨1, 0x8000⟩ = [0x00, 0x01, 0x80, 0x00] ∧
    putTs64 ⟨0xE8A1B2C4, 0x80010000⟩ = [0xe8, 0xa1, 0xb2, 0xc4, 0x80, 0x01, 0x00, 0x00] ∧
    [0x00, 0x7F, 0x80, 0xEC, 0xFF].map (fun b => (getS8 b).toInt) = [0, 127, -128, -20, -1] ∧
    putS8 (BitVec.ofInt 8 (-20)) = 0xEC ∧ (getS8 0xEC).signExtend 32 = 0xFFFFFFEC := by decide

/-! ## ENCODE, DECODE, BUILD_REQUEST (V-FR) -/

theorem test_encode_srv :
    (nextOf (exec .encode (withOperands .exampleA
      { Operands.reset with pktIn := .holds srv }))).map
      (fun s => s.results.frameOut.map (·.toList)) = some (.holds srvBytes) := by decide

theorem test_encode_s2 : (encodeFrame s2).toList = s2Bytes := by decide

/-- P2: the frame at offset 4 of a 60-byte buffer; the trailing bytes have no effect. -/
theorem test_decode_srv_at_offset :
    (nextOf (exec .decode (withOperands .exampleA
      (decodeOperands ([0xde, 0xad, 0xbe, 0xef] ++ srvBytes ++ List.replicate 8 0x11) 4)))).map
      (fun s => (s.results.pktOut, s.results.offOut)) = some (.holds srv, .holds 52) := by decide

/-- DECODE's outcome on a buffer of `l` bytes at offset `o` (V-FR-3). -/
def decodeAt (l o : Nat) : Option (Status × Slot Nat) :=
  (nextOf (exec .decode (withOperands .exampleA (decodeOperands (List.replicate l 0xE3) o)))).map
    fun s => (s.status, s.results.offOut)

/-- V-FR-3: the rows at both sides of the boundary, and 2^32 - 16, where a 32-bit sum would wrap. -/
theorem test_decode_length_check :
    decodeAt 1 0 = some (.truncatedPacket, .unwritten) ∧
    decodeAt 48 0 = some (.ok, .holds 48) ∧
    decodeAt 48 1 = some (.truncatedPacket, .unwritten) ∧
    decodeAt 10 20 = some (.truncatedPacket, .unwritten) ∧
    decodeAt 60 12 = some (.ok, .holds 60) ∧
    decodeAt 100 (2 ^ 32 - 16) = some (.truncatedPacket, .unwritten) := by decide

theorem test_buildRequest :
    (nextOf (exec .buildRequest .reset)).map (fun s => s.results.frameOut.map (·.toList)) =
      some (.holds (0x23 :: List.replicate 47 0)) := by decide

/-- V-EX, row 2: BUILD_REQUEST at reset leaves OK and no fault. -/
theorem test_buildRequest_at_reset :
    (nextOf (exec .buildRequest .reset)).map (fun s => (s.status, s.faults, s.run.faulted)) =
      some (.ok, 0, false) := by decide

/-! ## TS64_TO_LOCAL and TS32_TO_NANOS (V-TS) -/

theorem test_ts64ToLocal_vectors_a :
    ([⟨0, 0⟩, ⟨0, 1⟩, ⟨0, 0x80000000⟩, ⟨0, 0xFFFFFFFF⟩, ⟨2208988800, 0⟩,
      ⟨0xE8A1B2C4, 0x80010000⟩, ⟨0xFFFFFFFF, 0xFFFFFFFF⟩].map fun t => (toLocal .exampleA t).toInt) =
    [94354848000000000, 94354848000000000, 94354848005000000, 94354848009999999, 116444736000000000,
      133383959725000152, 137304520959999999] := by decide

theorem test_ts64ToLocal_vectors_b :
    ([⟨0, 0⟩, ⟨0, 5⟩, ⟨0, 0xFFFFFFFF⟩, ⟨2208988800, 0⟩, ⟨0xE8A1B2C4, 0x80010000⟩,
      ⟨0xFFFFFFFF, 0xFFFFFFFF⟩].map fun t => (toLocal .exampleB t).toInt) =
    [-2208988800000000000, -2208988799999999999, -2208988799000000001, 0, 1693922372500015258,
      2085978495999999999] := by decide

theorem test_ts32ToNanos_vectors :
    ([⟨0, 0⟩, ⟨0, 1⟩, ⟨0, 0x0010⟩, ⟨0, 0x0020⟩, ⟨0, 0xFFFF⟩, ⟨1, 0x8000⟩, ⟨2, 0x4000⟩, ⟨0x8000, 0⟩,
      ⟨0xFFFF, 0xFFFF⟩].map fun d => (toNanos d).toNat) =
    [0, 15258, 244140, 488281, 999984741, 1500000000, 2250000000, 32768000000000,
      65535999984741] := by decide

/-- P4, actions 1 and 2: TS32_TO_NANOS at an unwritten port. -/
theorem test_ts32ToNanos_unwritten :
    (nextOf (exec .ts32ToNanos .reset)).map
      (fun s => (s.status, s.faults, s.results.nanosOut, s.run.faulted)) =
      some (.unwrittenPort, 0x02, .unwritten, true) := by decide

/-! ## REFID_RENDER (V-RF) -/

theorem test_refidRender_text :
    ([#v[0x47, 0x50, 0x53, 0], #v[0x4C, 0x4F, 0x43, 0x4C], #v[0, 0, 0, 0], #v[0x41, 0, 0x42, 0],
      #v[0x01, 0x7F, 0x80, 0]].map (render 1)) =
    [[0x47, 0x50, 0x53], [0x4C, 0x4F, 0x43, 0x4C], [], [0x41], [0x01, 0x7F, 0x80]] := by decide

theorem test_refidRender_address :
    render 2 #v[192, 0, 2, 1] = [0x31, 0x39, 0x32, 0x2e, 0x30, 0x2e, 0x32, 0x2e, 0x31] ∧
    render 0 #v[0x52, 0x41, 0x54, 0x45] =
      [0x38, 0x32, 0x2e, 0x36, 0x35, 0x2e, 0x38, 0x34, 0x2e, 0x36, 0x39] ∧
    render 16 #v[0, 0, 0, 0] = [0x30, 0x2e, 0x30, 0x2e, 0x30, 0x2e, 0x30] ∧
    (render 255 #v[255, 255, 255, 255]).length = 15 := by decide

/-! ## Faults and host actions (V-EX, P4) -/

/-- `.cmd 0x19` at reset: ILLEGAL_COMMAND, FAULTS 0x01, nothing else. -/
theorem test_illegal_command :
    nextOf (step (before (.issue 0x19))) =
      some { before (.issue 0x19) with
        status := .illegalCommand, faults := 0x01
        run := ⟨[.issue 0x19], 1, true, none⟩ } := by decide

/-- `read PKT_OUT` at reset: STATUS unchanged, FAULTS 0x02, no value. -/
theorem test_read_unwritten :
    (nextOf (step (before (.read 0x21)))).map (fun s => (s.status, s.faults, s.run)) =
      some (.none, 0x02, ⟨[.read 0x21], 1, true, none⟩) := by decide

theorem test_read_configE :
    (nextOf (step (before (.read 0x04)))).map (fun s => (s.run.readValue, s.faults)) =
      some (some (.s64 94354848000000000), 0x00) := by decide

theorem test_write_then_port_holds :
    (nextOf (step (before (.write 0x12 (.nat 7))))).map (fun s => (s.operands.offIn, s.status)) =
      some (.holds 7, .none) := by decide

/-- R41: a write of a u8 to CMD issues it. -/
theorem test_write_cmd_issues :
    (nextOf (step (before (.write 0x00 (.byte 0x03))))).map (fun s => (s.status, s.run.h)) =
      some (.ok, 1) := by decide

/-- RESET clears FAULTS and the ports but not the run-level record (60_exceptions.md R209). -/
theorem test_reset_keeps_run_record :
    (nextOf (step { before .reset with
      faults := 0x03, status := .ok, operands := decodeOperands [] 1
      run := ⟨[.reset], 0, true, none⟩ })).map
      (fun s => (s.faults, s.status, s.operands, s.run.faulted)) =
      some (0x00, .none, .reset, true) := by decide

/-- "DECODE with L=47, o=0" after a successful one: PKT_OUT and OFF_OUT become unwritten. -/
theorem test_truncated_clears_results :
    (nextOf (exec .decode { withOperands .exampleA (decodeOperands (List.replicate 47 0) 0) with
      results := { Results.reset with pktOut := .holds srv, offOut := .holds 48 } })).map
      (fun s => (s.results, s.faults)) = some (.reset, 0x00) := by decide

theorem test_refusals :
    refusalOf (step .reset) = some .runEnded ∧
    refusalOf (step (before (.read 0x00))) = some .noMove ∧
    refusalOf (step (startProgram [.reset] (.resetWith ⟨0, 0⟩))) = some .configurationRefused ∧
    refusalOf (exec .buildRequest (.resetWith ⟨0, 0⟩)) = some .configurationRefused := by decide

/-- The port lists of 10_state.md R29 and R30 for each command, by number. -/
theorem test_port_lists :
    (Instr.all.map fun i => ((operandsOf i).map portNumber, (resultsOf i).map portNumber)) =
    [([0x10], [0x20]), ([0x11, 0x12], [0x21, 0x22]), ([], [0x20]), ([0x16], [0x25]),
      ([0x15], [0x26]), ([0x13], [0x23]), ([0x14], [0x24]), ([0x17, 0x18], [0x27])] := by decide

/-! ## Assembly (30_encoding.md R83, R84; the programs of 95_test_vectors.md). `ob` and `cb` stand for
the braces of a record literal, which a string of this package may not hold. -/

def ob : String := String.singleton openBrace
def cb : String := String.singleton closeBrace

theorem test_assemble_actions :
    assembleLine "  Build_Request ; a comment" = .ok [.issue 0x03] ∧
    assembleLine ".cmd 0x19" = .ok [.issue 0x19] ∧
    assembleLine "set BUF_IN, hex\"e3 00\"" = .ok [.write 0x11 (.bytes [0xe3, 0x00])] ∧
    assembleLine "read LOCAL_OUT" = .ok [.read 0x23] ∧
    assembleLine "reset" = .ok [.reset] ∧ assembleLine "; only a comment" = .ok [] := by
  refine ⟨?_, ?_, ?_, ?_, ?_, ?_⟩ <;> rfl

theorem test_assemble_pseudo :
    assembleLine "decode_at 48" = .ok [.write 0x12 (.nat 48), .issue 0x02] ∧
    assembleLine "render 1, [0x47,0x50,0x53,0x00]" =
      .ok [.write 0x17 (.byte 1), .write 0x18 (.refId #v[0x47, 0x50, 0x53, 0]), .issue 0x08] ∧
    assembleLine ("to_nanos " ++ ob ++ "s=1, f=0x8000" ++ cb) =
      .ok [.write 0x14 (.ts32 ⟨1, 0x8000⟩), .issue 0x07] := by
  refine ⟨?_, ?_, ?_⟩ <;> rfl

/-- "A literal out of its field's range is an assembly error." -/
theorem test_assemble_errors :
    assembleLine "unpack 256" = .error .outOfRange ∧ assembleLine "pack 4, 0, 0" = .error .outOfRange ∧
    assembleLine "set STATUS, 1" = .error .notWritable ∧ assembleLine "frobnicate" = .error .unknownName ∧
    assembleLine "set OFF_IN 3" = .error .malformed := by
  refine ⟨?_, ?_, ?_, ?_, ?_⟩ <;> rfl

/-- P5, action 0: a whole packet literal, with a signed precision. -/
def packetLine : String :=
  "encode " ++ ob ++ "li=3, vn=4, mode=4, stratum=2, poll=10, precision=-128, rootDelay="
    ++ ob ++ "s=1, f=0x8000" ++ cb ++ ", rootDispersion=" ++ ob ++ "s=0xFFFF, f=0xFFFF" ++ cb
    ++ ", referenceId=[192,0,2,1], reference=" ++ ob ++ "s=0xFFFFFFFF, f=0xFFFFFFFF" ++ cb
    ++ ", origin=" ++ ob ++ "s=0x01234567, f=0x89ABCDEF" ++ cb ++ ", receive=" ++ ob ++ "s=0, f=1"
    ++ cb ++ ", transmit=" ++ ob ++ "s=0x80000000, f=0" ++ cb ++ cb

theorem test_assemble_packet :
    (assembleLine packetLine).toOption = some [.write 0x10 (.packet s2), .issue 0x01] := by
  decide +kernel

/-! ## Witnesses: for each statement with hypotheses, a state and operands that meet them together -/

theorem witness_StepRunsTheDecodedInstruction :
    admitted (before (.issue 0x02)).config = true ∧
    nextAction (before (.issue 0x02)) = some (.issue 0x02) ∧
    nextAction (before (.write 0x00 (.byte 0x02))) = some (.write 0x00 (.byte 0x02)) ∧
    decode 0x02 = .ok .decode ∧ decodeTableWord 8 0x02 = some .decode := by decide

/-- The reserved operations next to the legal ones, and a word with a reserved bit set, issued and written
to CMD. -/
theorem witness_IllegalCommandChangesNoPort :
    admitted (before (.issue 0x09)).config = true ∧
    nextAction (before (.issue 0x09)) = some (.issue 0x09) ∧ 9 ≤ (0x09 : Byte).toNat ∧
    nextAction (before (.issue 0x00)) = some (.issue 0x00) ∧ (0x00 : Byte).toNat = 0 ∧
    nextAction (before (.issue 0x18)) = some (.issue 0x18) ∧
    (0x18 : Byte).extractLsb' 4 4 ≠ 0#4 ∧
    nextAction (before (.write 0x00 (.byte 0x18))) = some (.write 0x00 (.byte 0x18)) := by decide

theorem witness_OperationMapSelectsTheCommands :
    (0x00 : Byte) = 0x00 ∧ 0x09 ≤ (0x09 : Byte).toNat ∧ (0x0F : Byte).toNat ≤ 0x0F := by decide

theorem witness_DecodeInvertsTheCommandWord :
    Instr.wellFormed .refidRender = true ∧ (0x10 : Byte).extractLsb' 4 4 ≠ 0#4 := by decide

/-- FLAGS_PACK: its operand written, and unwritten. -/
theorem witness_FlagsPackWritesTheFlagByte :
    admitted State.reset.config = true ∧
    (withOperands .exampleA { Operands.reset with fldIn := .holds ⟨3, 7, 7⟩ }).operands.fldIn =
      .holds ⟨3, 7, 7⟩ ∧ State.reset.operands.fldIn = .unwritten := by decide

theorem witness_FlagsUnpackSplitsTheFlagByte :
    admitted State.reset.config = true ∧
    (withOperands .exampleA { Operands.reset with byteIn := .holds 0xFF }).operands.byteIn =
      .holds 0xFF ∧ State.reset.operands.byteIn = .unwritten := by decide

theorem witness_EncodeWritesTheWireFrame :
    admitted State.reset.config = true ∧
    (withOperands .exampleA { Operands.reset with pktIn := .holds s2 }).operands.pktIn = .holds s2 ∧
    State.reset.operands.pktIn = .unwritten := by decide

/-- The boundary `o + 48 = L`, at offset 0 and at a larger one. -/
theorem witness_DecodeParsesTheWireFrame :
    admitted State.reset.config = true ∧
    (withOperands .exampleA (decodeOperands s2Bytes 0)).operands.bufIn = .holds s2Bytes ∧
    (withOperands .exampleA (decodeOperands s2Bytes 0)).operands.offIn = .holds 0 ∧
    0 + 48 ≤ s2Bytes.length ∧ 12 + 48 ≤ (List.replicate 12 (0 : Byte) ++ s2Bytes).length := by decide

theorem witness_DecodeIsIdempotent :
    admitted State.reset.config = true ∧
    (withOperands .exampleA (decodeOperands [1] 5)).operands.bufIn = .holds [1] ∧
    (withOperands .exampleA (decodeOperands [1] 5)).operands.offIn = .holds 5 := by decide

/-- The boundary `L = o + 47`, and `o > L`. -/
theorem witness_ShortBufferSignalsTruncatedPacket :
    admitted State.reset.config = true ∧
    (withOperands .exampleA (decodeOperands (List.replicate 47 0) 0)).operands.bufIn =
      .holds (List.replicate 47 0) ∧
    (withOperands .exampleA (decodeOperands (List.replicate 47 0) 0)).operands.offIn = .holds 0 ∧
    (List.replicate 47 (0 : Byte)).length < 0 + 48 ∧
    (List.replicate 10 (0 : Byte)).length < 20 + 48 := by decide

/-- V-EX, row 5: BUF_IN written with `L = 10`, OFF_IN not; and an illegal word. -/
theorem witness_ChecksAreMadeInPriorityOrder :
    admitted State.reset.config = true ∧
    (withOperands .exampleA
      { Operands.reset with bufIn := .holds (List.replicate 10 0) }).operands.offIn = .unwritten ∧
    nextAction (before (.issue 0x19)) = some (.issue 0x19) ∧
    nextAction (before (.write 0x00 (.byte 0x19))) = some (.write 0x00 (.byte 0x19)) ∧
    (∀ i ∈ Instr.all, (0x19 : Byte) ≠ Sys2Proof.encode i) := by decide

theorem witness_BuildRequestWritesTheMinimalRequest :
    admitted (State.resetWith .exampleB).config = true ∧ 1 ≤ 1 ∧ 47 < 48 := by decide

/-- The extreme admitted configuration of the configuration check, and CFG-B. -/
theorem witness_Ts64ToLocalConvertsExactly :
    admitted ⟨1, 2 ^ 63 - 1 - (2 ^ 32 - 1)⟩ = true ∧ admitted .exampleB = true ∧
    (withOperands ⟨1, 2 ^ 63 - 1 - (2 ^ 32 - 1)⟩
      { Operands.reset with ts64In := .holds ⟨0xFFFFFFFF, 0xFFFFFFFF⟩ }).operands.ts64In =
      .holds ⟨0xFFFFFFFF, 0xFFFFFFFF⟩ ∧
    (State.resetWith .exampleB).operands.ts64In = .unwritten := by decide

theorem witness_Ts32ToNanosConvertsExactly :
    admitted State.reset.config = true ∧
    (withOperands .exampleA { Operands.reset with ts32In := .holds ⟨0xFFFF, 0xFFFF⟩ }).operands.ts32In =
      .holds ⟨0xFFFF, 0xFFFF⟩ ∧ State.reset.operands.ts32In = .unwritten := by decide

/-- A tag with a 0x00 byte and one without (the two ends of `n`). -/
theorem witness_StratumOneRendersText :
    admitted State.reset.config = true ∧
    (withOperands .exampleA (renderOperands 1 #v[0, 1, 2, 3])).operands =
      { Operands.reset with stratumIn := .holds 1, refidIn := .holds #v[0, 1, 2, 3] } ∧
    (#v[0, 1, 2, 3] : RefId)[0] = 0#8 ∧ (#v[1, 2, 3, 4] : RefId)[3] ≠ 0#8 := by decide

/-- Strata 0 and 2, on both sides of 1; also of RenderDependsOnStratumOneOnly. -/
theorem witness_OtherStrataRenderTheAddress :
    admitted State.reset.config = true ∧
    (withOperands .exampleA (renderOperands 0 #v[0, 9, 10, 255])).operands.stratumIn = .holds 0 ∧
    (withOperands .exampleA (renderOperands 2 #v[0, 9, 10, 255])).operands.refidIn =
      .holds #v[0, 9, 10, 255] ∧ (0 : Byte) ≠ 1 ∧ (2 : Byte) ≠ 1 := by decide

theorem witness_RenderDependsOnStratumOneOnly :
    admitted State.reset.config = true ∧ ((0 : Byte) = 1 ↔ (2 : Byte) = 1) ∧
    ((1 : Byte) = 1 ↔ (1 : Byte) = 1) ∧
    (withOperands .exampleA (renderOperands 0 #v[1, 2, 3, 4])).operands.refidIn =
      (withOperands .exampleB (renderOperands 2 #v[1, 2, 3, 4])).operands.refidIn := by decide

theorem witness_RenderNeedsBothOperands :
    admitted State.reset.config = true ∧
    (withOperands .exampleA { Operands.reset with refidIn := .holds #v[1, 2, 3, 4] }).operands.stratumIn =
      .unwritten ∧
    (withOperands .exampleA { Operands.reset with stratumIn := .holds 1 }).operands.refidIn =
      .unwritten := by decide

theorem witness_UnwrittenOperandEndsTheCommand :
    admitted State.reset.config = true ∧ Port.offIn ∈ operandsOf .decode ∧
    portSlot (withOperands .exampleA { Operands.reset with bufIn := .holds [] }) .offIn =
      some .unwritten := by decide

theorem witness_CommandsWriteNoOperandPort : admitted State.reset.config = true := by decide

/-- DECODE on both sides of the boundary `o + 48 = L`, its operands written. -/
theorem witness_EveryCommandEndsWithOneStatus :
    admitted State.reset.config = true ∧
    (nextOf (exec .decode (withOperands .exampleA (decodeOperands s2Bytes 0)))).map (·.status) =
      some .ok ∧
    (nextOf (exec .decode (withOperands .exampleA (decodeOperands s2Bytes 1)))).map (·.status) =
      some .truncatedPacket ∧
    (nextOf (exec .decode (withOperands .exampleB (decodeOperands [] 0)))).map
      (fun s => (s.status, s.faults)) = some (.truncatedPacket, 0) := by decide

/-- A state for each of the three outcomes. -/
theorem witness_ResultRegistersFollowTheDiscipline :
    admitted State.reset.config = true ∧
    (nextOf (exec .buildRequest .reset)).map (·.status) = some .ok ∧
    (nextOf (exec .decode .reset)).map (·.status) = some .unwrittenPort ∧
    (nextOf (exec .decode (withOperands .exampleA (decodeOperands [] 0)))).map (·.status) =
      some .truncatedPacket := by decide

/-- Two states that agree on FLD_IN alone: STATUS, FAULTS, another port and a result differ. -/
theorem witness_ResultsDependOnOperandsAlone :
    admitted State.reset.config = true ∧
    (∀ p ∈ operandsOf .flagsPack,
      portSlot { State.reset with operands := { Operands.reset with byteIn := .holds 1 }
                                  status := .truncatedPacket, faults := 0x03
                                  results := { Results.reset with flagsOut := .holds 9 } } p =
        portSlot .reset p) := by decide

theorem witness_DecodeOfEncodeGivesThePacketBack :
    admitted State.reset.config = true ∧
    (withOperands .exampleA { Operands.reset with pktIn := .holds srv }).operands.pktIn =
      .holds srv := by decide

theorem witness_EncodeOfDecodeGivesTheBytesBack :
    admitted State.reset.config = true ∧
    (withOperands .exampleA (decodeOperands (encodeFrame s2).toList 0)).operands.bufIn =
      .holds (encodeFrame s2).toList ∧
    (withOperands .exampleA (decodeOperands (encodeFrame s2).toList 0)).operands.offIn =
      .holds 0 := by decide

theorem witness_PackingPrimitivesRoundTrip :
    putBe16 0x1234 = [0x12, 0x34] ∧ putBe32 0xE8A1B2C4 = [0xe8, 0xa1, 0xb2, 0xc4] ∧
    putTs32 ⟨1, 0x8000⟩ = [0, 1, 0x80, 0] ∧
    putTs64 ⟨0xE8A1B2C4, 0x80010000⟩ = [0xe8, 0xa1, 0xb2, 0xc4, 0x80, 0x01, 0x00, 0x00] := by decide

/-- P3: two frames in 96 bytes, and the third DECODE that finds none. -/
theorem witness_CursorWalksBackToBackFrames :
    admitted State.reset.config = true ∧ 1 ≤ 2 ∧
    (withOperands .exampleA (decodeOperands (srvBytes ++ s2Bytes) 0)).operands.bufIn =
      .holds (srvBytes ++ s2Bytes) ∧
    (withOperands .exampleA (decodeOperands (srvBytes ++ s2Bytes) 0)).operands.offIn = .holds 0 ∧
    0 + 48 * 2 ≤ (srvBytes ++ s2Bytes).length ∧ ¬ 0 + 48 * 3 ≤ (srvBytes ++ s2Bytes).length ∧
    ((decodeFrames 2 (withOperands .exampleA (decodeOperands (srvBytes ++ s2Bytes) 0))).map
      (·.operands.offIn)) = some (.holds 96) := by decide

theorem witness_DecodeReadsItsFrameAlone :
    admitted State.reset.config = true ∧
    (withOperands .exampleA (decodeOperands ([7] ++ srvBytes ++ [9]) 1)).operands.offIn = .holds 1 ∧
    (withOperands .exampleA (decodeOperands srvBytes 0)).operands.offIn = .holds 0 ∧
    1 + 48 ≤ ([7] ++ srvBytes ++ [9]).length ∧ 0 + 48 ≤ srvBytes.length ∧
    (∀ i, i < 48 → ([7] ++ srvBytes ++ [9])[1 + i]? = srvBytes[0 + i]?) := by decide

theorem witness_ConversionsAreMonotone :
    admitted State.reset.config = true ∧
    (withOperands .exampleA { Operands.reset with ts64In := .holds ⟨0, 0xFFFFFFFF⟩ }).operands.ts64In =
      .holds ⟨0, 0xFFFFFFFF⟩ ∧
    (withOperands .exampleA { Operands.reset with ts64In := .holds ⟨1, 0⟩ }).config =
      State.reset.config ∧
    (0#32).toNat * 2 ^ 32 + (0xFFFFFFFF#32).toNat ≤ (1#32).toNat * 2 ^ 32 + (0#32).toNat ∧
    (withOperands .exampleA { Operands.reset with ts32In := .holds ⟨0, 0xFFFF⟩ }).operands.ts32In =
      .holds ⟨0, 0xFFFF⟩ ∧
    (0#16).toNat * 2 ^ 16 + (0xFFFF#16).toNat ≤ (1#16).toNat * 2 ^ 16 + (0#16).toNat := by decide

theorem witness_ConversionsRoundDownOnce :
    admitted State.reset.config = true ∧
    (withOperands .exampleA { Operands.reset with ts64In := .holds ⟨0, 1⟩ }).operands.ts64In =
      .holds ⟨0, 1⟩ ∧
    (withOperands .exampleA { Operands.reset with ts32In := .holds ⟨0, 1⟩ }).operands.ts32In =
      .holds ⟨0, 1⟩ := by decide

theorem witness_AdmittedConfigurationsNeverOverflow :
    1 ≤ Config.exampleB.unitsPerSecond ∧ Config.exampleB.unitsPerSecond ≤ 2 ^ 32 ∧
    admitted ⟨2 ^ 32, -2 ^ 63⟩ = true := by decide

theorem witness_OtherConfigurationsAreRefused :
    admitted (State.resetWith ⟨2 ^ 32, 0⟩).config = false ∧ admitted .exampleB = true := by decide

/-- A WRITE of each operand port's type. -/
theorem witness_WriteStoresTheOperand :
    admitted (before (.write 0x10 (.packet s2))).config = true ∧
    nextAction (before (.write (portNumber .pktIn) (.packet s2))) =
      some (.write (portNumber .pktIn) (.packet s2)) ∧
    Port.pktIn ∈ operandPorts ∧ Port.refidIn ∈ operandPorts ∧
    (HostAction.write (portNumber .pktIn) (.packet s2)).allowed = true ∧
    (HostAction.write (portNumber .bufIn) (.bytes [])).allowed = true ∧
    (HostAction.write (portNumber .offIn) (.nat (2 ^ 70))).allowed = true ∧
    (HostAction.write (portNumber .ts64In) (.ts64 ⟨0, 0⟩)).allowed = true ∧
    (HostAction.write (portNumber .ts32In) (.ts32 ⟨0, 0⟩)).allowed = true ∧
    (HostAction.write (portNumber .byteIn) (.byte 0)).allowed = true ∧
    (HostAction.write (portNumber .fldIn) (.fields ⟨0, 0, 0⟩)).allowed = true ∧
    (HostAction.write (portNumber .stratumIn) (.byte 0)).allowed = true ∧
    (HostAction.write (portNumber .refidIn) (.refId #v[0, 0, 0, 0])).allowed = true := by decide

/-- 10_state.md R42: a READ of each of two written result registers returns its stored value. -/
theorem test_read_results :
    ((nextOf (step (placeAction (.read 0x22) { State.reset with
      results := { Results.reset with offOut := .holds 96 } }))).map (·.run.readValue)) =
      some (some (.nat 96)) ∧
    ((nextOf (step (placeAction (.read 0x23) { State.reset with
      results := { Results.reset with localOut := .holds 7 } }))).map (·.run.readValue)) =
      some (some (.s64 7)) := by decide

/-- A READ of STATUS, which always has a value, and of TEXT_OUT at reset, which has none. -/
theorem witness_ReadReturnsTheValueOrFaults :
    admitted (before (.read 0x01)).config = true ∧
    nextAction (before (.read (portNumber .status))) = some (.read (portNumber .status)) ∧
    portSlot (before (.read 0x01)) .status = some (.holds (.byte 0)) ∧
    nextAction (before (.read (portNumber .textOut))) = some (.read (portNumber .textOut)) ∧
    portSlot (before (.read 0x27)) .textOut = some .unwritten := by decide

theorem witness_OnlyResetClearsFaultsAndOperands :
    admitted (before .reset).config = true ∧ nextAction (before .reset) = some .reset ∧
    nextAction (before (.issue 0x01)) = some (.issue 0x01) ∧ HostAction.issue 0x01 ≠ .reset ∧
    (nextOf (step (before (.issue 0x01)))).map (·.faults) = some 0x02 ∧
    portWritten (withOperands .exampleA (decodeOperands [] 0)) .bufIn = true := by decide

theorem witness_AccessesOutsideTheMapHaveNoMove :
    admitted (before (.read 0x00)).config = true ∧
    nextAction (before (.read 0x00)) = some (.read 0x00) ∧ (HostAction.read 0x00).allowed = false ∧
    nextAction (before (.write 0x00 (.nat 1))) = some (.write 0x00 (.nat 1)) ∧
    (HostAction.write 0x00 (.nat 1)).allowed = false ∧
    nextAction (before (.read 0x01)) = some (.read 0x01) ∧ (HostAction.read 0x01).allowed = true ∧
    (HostAction.write 0x18 (.refId #v[0, 0, 0, 0])).allowed = true ∧
    (HostAction.write 0x00 (.byte 0xFF)).allowed = true := by decide

theorem witness_EveryAllowedActionIsOneStep :
    admitted (before (.read 0x27)).config = true ∧
    nextAction (before (.read 0x27)) = some (.read 0x27) ∧ (HostAction.read 0x27).allowed = true := by
  decide

theorem witness_RunsOfAllowedActionsReachTheirEnd :
    admitted (before (.issue 0xFF)).config = true ∧
    (before (.issue 0xFF)).run.h ≤ (before (.issue 0xFF)).run.program.length ∧
    (∀ a ∈ (before (.issue 0xFF)).run.program.drop (before (.issue 0xFF)).run.h,
      a.allowed = true) := by decide

/-- A faulted run that takes RESET, and a command that sets a FAULTS bit. -/
theorem witness_FaultRecordIsNeverCleared :
    (nextOf (step { before .reset with run := ⟨[.reset], 0, true, none⟩ })).map (·.run.faulted) =
      some true ∧
    nextAction (before .reset) = some .reset ∧
    (nextOf (step (before (.issue 0x02)))).map (fun s => decide (s.faults ≠ 0)) = some true ∧
    nextAction (before (.issue 0x02)) ≠ some .reset := by decide

theorem witness_InvariantHoldsAfterReset : admitted .exampleA = true := by decide

/-- A state that meets the invariant and takes a step. -/
theorem witness_EveryStepKeepsTheInvariant :
    State.Inv (before (.issue 0x03)) ∧
    (nextOf (step (before (.issue 0x03)))).map (·.status) = some .ok := by
  constructor
  · constructor <;> first | decide | exact trivial
  · decide

/-- A one-digit decimal literal. -/
theorem isIntLiteral_digit (c : Char) (d : Nat) (h : IsDigit 10 c d) : IsIntLiteral [c] d :=
  ⟨[c], d, .inl ⟨[d], by simp, .cons h .nil, by simp⟩, .inl ⟨rfl, rfl⟩⟩

theorem isIntLiteral_one : IsIntLiteral ['1'] 1 := isIntLiteral_digit '1' 1 ⟨by decide, .inl rfl⟩

theorem isIntLiteral_eight : IsIntLiteral ['8'] 8 := isIntLiteral_digit '8' 8 ⟨by decide, .inl rfl⟩

/-- `0xfF`, the largest u8, with a small and a capital digit. -/
theorem isIntLiteral_hex : IsIntLiteral ['0', 'x', 'f', 'F'] 255 :=
  ⟨_, 255, .inr ⟨['f', 'F'], rfl, [15, 15], by simp,
    .cons ⟨by decide, .inl rfl⟩ (.cons ⟨by decide, .inr rfl⟩ .nil), rfl⟩, .inl ⟨rfl, rfl⟩⟩

/-- `256`, the least integer out of a u8's range, and `-1`. -/
theorem isIntLiteral_out : IsIntLiteral ['2', '5', '6'] 256 ∧ IsIntLiteral ['-', '1'] (-1) :=
  ⟨⟨_, 256, .inl ⟨[2, 5, 6], by simp, .cons ⟨by decide, .inl rfl⟩ (.cons ⟨by decide, .inl rfl⟩
      (.cons ⟨by decide, .inl rfl⟩ .nil)), rfl⟩, .inl ⟨rfl, rfl⟩⟩,
    ⟨['1'], 1, .inl ⟨[1], by simp, .cons ⟨by decide, .inl rfl⟩ .nil, rfl⟩, .inr ⟨rfl, rfl⟩⟩⟩

/-- `.cmd` in range at its boundary and out of range, a mnemonic in mixed case, and a line with no quote. -/
theorem witness_AssemblyLinesNameTheHostActions :
    IsUnsignedLiteral 8 ['0', 'x', 'f', 'F'] (some 0xFF) ∧
    IsUnsignedLiteral 8 ['2', '5', '6'] none ∧ IsUnsignedLiteral 8 ['-', '1'] none ∧
    ['E', 'n', 'C', 'o', 'd', 'E'].map Char.toLower = "encode".toList ∧
    '"' ∉ "set OFF_IN, 1".toList :=
  ⟨⟨_, isIntLiteral_hex, by decide⟩, ⟨_, isIntLiteral_out.1, by decide⟩,
    ⟨_, isIntLiteral_out.2, by decide⟩, by decide, by decide +kernel⟩

theorem isUnsignedLiteral_one (n : Nat) : IsUnsignedLiteral n ['1'] (inField n 1) :=
  ⟨_, isIntLiteral_one, rfl⟩

theorem isTs64Literal_ones : ∃ cs, IsTs64Literal cs (some ⟨1, 1⟩) :=
  ⟨_, _, ⟨_, _, _, _, isUnsignedLiteral_one 32, isUnsignedLiteral_one 32, rfl, rfl⟩, by decide⟩

theorem isTs32Literal_ones : ∃ cs, IsTs32Literal cs (some ⟨1, 1⟩) :=
  ⟨_, _, ⟨_, _, _, _, isUnsignedLiteral_one 16, isUnsignedLiteral_one 16, rfl, rfl⟩, by decide⟩

theorem isRefIdLiteral_ones : ∃ cs, IsRefIdLiteral cs (some #v[1, 1, 1, 1]) :=
  ⟨_, _, _, _, _, _, _, _, _, isUnsignedLiteral_one 8, isUnsignedLiteral_one 8,
    isUnsignedLiteral_one 8, isUnsignedLiteral_one 8, rfl, by decide⟩

theorem isFlagText_ones : ∃ cs, IsFlagText cs (some ⟨1, 1, 1⟩) :=
  ⟨_, _, _, _, _, _, _, isUnsignedLiteral_one 2, isUnsignedLiteral_one 3, isUnsignedLiteral_one 3,
    rfl, by decide⟩

/-- `mode=8` is out of the three bits of its field. -/
theorem isFlagText_out : ∃ cs, IsFlagText cs none :=
  ⟨_, _, _, _, _, _, _, isUnsignedLiteral_one 2, isUnsignedLiteral_one 3,
    ⟨_, isIntLiteral_eight, rfl⟩, rfl, by decide⟩

/-- The packet whose fields are all 1, but for a precision of -1. -/
def packetOfOnes : NtpPacket :=
  { leapIndicator := 1, version := 1, mode := 1, stratum := 1, poll := 1, precision := 255,
    rootDelay := ⟨1, 1⟩, rootDispersion := ⟨1, 1⟩, referenceId := #v[1, 1, 1, 1],
    reference := ⟨1, 1⟩, origin := ⟨1, 1⟩, receive := ⟨1, 1⟩, transmit := ⟨1, 1⟩ }

/-- A packet literal for each text of its opening fields: in range, and out of it. -/
theorem isPacketLiteral_of {flags : List Char} {xf : Option FlagFields} (h : IsFlagText flags xf) :
    ∃ cs, IsPacketLiteral cs (xf.map fun f => { packetOfOnes with
      leapIndicator := f.leapIndicator, version := f.version, mode := f.mode }) := by
  obtain ⟨_, h1⟩ := isTs32Literal_ones
  obtain ⟨_, h2⟩ := isTs64Literal_ones
  obtain ⟨_, h3⟩ := isRefIdLiteral_ones
  refine ⟨_, _, _, _, _, _, _, _, _, _, _, _, _, _, _, _, _, _, _, _, _, _, _, h,
    isUnsignedLiteral_one 8, isUnsignedLiteral_one 8, ⟨_, isIntLiteral_out.2, rfl⟩, h1, h1, h3, h2, h2,
    h2, h2, rfl, ?_⟩
  cases xf <;> rfl

/-- A literal of every operand port's type, and for the kinds that have a range one out of it. -/
theorem witness_SetLinesWriteTheOperandPorts :
    (∃ cs, IsPacketLiteral cs (some packetOfOnes)) ∧ (∃ cs, IsPacketLiteral cs none) ∧
    IsBytesLiteral "hex\"e3 00\"".toList [0xE3, 0x00] ∧ IsBytesLiteral "hex\"\"".toList [] ∧
    IsNatLiteral ['2', '5', '6'] (some 256) ∧ IsNatLiteral ['-', '1'] none ∧
    (∃ cs, IsTs64Literal cs (some ⟨1, 1⟩)) ∧ (∃ cs, IsTs32Literal cs (some ⟨1, 1⟩)) ∧
    (∃ cs, IsFlagsLiteral cs (some ⟨1, 1, 1⟩)) ∧ (∃ cs, IsFlagsLiteral cs none) ∧
    (∃ cs, IsRefIdLiteral cs (some #v[1, 1, 1, 1])) := by
  obtain ⟨f, hf⟩ := isFlagText_ones
  obtain ⟨g, hg⟩ := isFlagText_out
  exact ⟨isPacketLiteral_of hf, isPacketLiteral_of hg,
    ⟨['e', '3', ' ', '0', '0'], ⟨'e', '3', _, rfl, ⟨by decide, .inl rfl⟩, ⟨by decide, .inl rfl⟩,
      .inr ⟨by simp, _, rfl, '0', '0', _, rfl, ⟨by decide, .inl rfl⟩, ⟨by decide, .inl rfl⟩,
        .inl ⟨rfl, rfl⟩⟩⟩, rfl⟩,
    ⟨[], rfl, rfl⟩, ⟨_, isIntLiteral_out.1, by decide⟩, ⟨_, isIntLiteral_out.2, by decide⟩,
    isTs64Literal_ones, isTs32Literal_ones, ⟨_, f, hf, rfl⟩, ⟨_, g, hg, rfl⟩, isRefIdLiteral_ones⟩

/-- Operands of each pseudo-instruction are the literals of `witness_SetLinesWriteTheOperandPorts`; here the
u8, 2-bit and 3-bit ones, in range and out of it. -/
theorem witness_PseudoLinesAssembleAsTheirExpansion :
    IsUnsignedLiteral 2 ['1'] (some 1) ∧ IsUnsignedLiteral 2 ['8'] none ∧
    IsUnsignedLiteral 3 ['1'] (some 1) ∧ IsUnsignedLiteral 3 ['8'] none ∧
    IsUnsignedLiteral 8 ['8'] (some 8) ∧ IsNatLiteral ['8'] (some 8) :=
  ⟨⟨_, isIntLiteral_one, by decide⟩, ⟨_, isIntLiteral_eight, by decide⟩,
    ⟨_, isIntLiteral_one, by decide⟩, ⟨_, isIntLiteral_eight, by decide⟩,
    ⟨_, isIntLiteral_eight, by decide⟩, ⟨_, isIntLiteral_eight, by decide⟩⟩

theorem witness_ProgramsAreTheirLinesInOrder :
    assembleLine "reset" = .ok [.reset] ∧ assemble ["ENCODE"] = .ok [.issue 0x01] ∧
    "unpack 256" ∈ ["reset", "unpack 256"] ∧ assembleLine "unpack 256" = .error .outOfRange :=
  ⟨rfl, rfl, by decide, rfl⟩

end Sys2Proof.Tests
end

section
/-! Configuration well-formedness (00_scope.md R10): the admitted configurations are those under which no
result of TS64_TO_LOCAL leaves the signed 64-bit range. The extreme results are reached, at the all-zeros
and the all-ones timestamp, so the two bounds of R10 are necessary as well as sufficient. -/

namespace Sys2Proof.Machine

/-- The formula of 42_timestamp.md R161, over the integers throughout. -/
theorem localTime_eq (c : Config) (t : NtpTimestamp64) :
    localTime c t = c.epochOffset + (t.seconds.toNat : Int) * c.unitsPerSecond
      + (t.fraction.toNat : Int) * c.unitsPerSecond / 2 ^ 32 := by
  simp [localTime]

/-- The last line of 00_scope.md R10, over the integers throughout. -/
theorem largestLocal_eq (c : Config) :
    largestLocal c = c.epochOffset + (2 ^ 32 - 1) * (c.unitsPerSecond : Int)
      + (2 ^ 32 - 1) * (c.unitsPerSecond : Int) / 2 ^ 32 := by
  simp [largestLocal]

theorem localTime_zero (c : Config) : localTime c ⟨0, 0⟩ = c.epochOffset := by
  simp [localTime]

theorem localTime_allOnes (c : Config) :
    localTime c ⟨.allOnes 32, .allOnes 32⟩ = largestLocal c := by
  simp [localTime, largestLocal]

/-- For `U` in 1..2^32 the bounds of R10 on `E` and on the largest result say that every result is in
range: sufficient by `localTime_range`, necessary at the two extreme timestamps. -/
theorem admitted_iff_localTime_in_range {c : Config} (h1 : 1 ≤ c.unitsPerSecond)
    (h2 : c.unitsPerSecond ≤ 2 ^ 32) :
    admitted c = true ↔
      ∀ t : NtpTimestamp64, -2 ^ 63 ≤ localTime c t ∧ localTime c t ≤ 2 ^ 63 - 1 := by
  constructor
  · intro h t
    obtain ⟨-, -, hlo, hhi⟩ := admitted_iff.1 h
    obtain ⟨hmin, hmax⟩ := localTime_range c t
    exact ⟨hlo.trans hmin, hmax.trans hhi⟩
  · intro h
    have hlo := (h ⟨0, 0⟩).1
    have hhi := (h ⟨.allOnes 32, .allOnes 32⟩).2
    rw [localTime_zero] at hlo
    rw [localTime_allOnes] at hhi
    exact admitted_iff.2 ⟨h1, h2, hlo, hhi⟩

/-- An instance exists only under an admitted configuration (60_exceptions.md R205). -/
theorem admitted_of_instantiate_next {c : Config} {s : State} (h : instantiate c = .next s) :
    admitted c = true :=
  (underConfig_next_iff.1 h).1

/-- Settles O32: the conditions are `admitted_iff`; that they are exactly the absence of overflow is
`admitted_iff_localTime_in_range`. -/
theorem admittedConfigurationsNeverOverflow : Obligations.AdmittedConfigurationsNeverOverflow := by
  refine ⟨fun c => ?_, fun c h1 h2 => ?_, fun c hc s hs => ?_⟩
  · rw [admitted_iff, largestLocal_eq]
  · simp only [← localTime_eq]
    exact admitted_iff_localTime_in_range h1 h2
  · exact Bool.false_ne_true (hc.symm.trans (admitted_of_instantiate_next hs))

end Sys2Proof.Machine
end

section
/-! A command as a function (10_state.md R20, R36): how it ends is decided by the configuration and the
operand ports alone, and the state it leaves follows from how it ends. -/

namespace Sys2Proof.Machine

/-- How a command ends (60_exceptions.md R200). -/
inductive CommandEnding where
  /-- it completes, its result registers being overwritten as `write` does (10_state.md R31). -/
  | completes (write : Results → Results)
  /-- `TruncatedPacket` (60_exceptions.md R201). -/
  | truncated
  /-- `UnwrittenPort` (60_exceptions.md R203). -/
  | unwritten

/-- `require_written` as a choice of ending: `requireWritten_eq_apply` ties it to `requireWritten`. -/
def CommandEnding.withOperand {α : Type} (p : Slot α) (k : α → CommandEnding) : CommandEnding :=
  match p with
  | .unwritten => .unwritten
  | .holds v => k v

open CommandEnding in
/-- How the command `i` ends under the configuration `c` with the operand ports `o`: `exec_eq` ties it to
`exec`. -/
def endingOf (c : Config) (o : Operands) : Instr → CommandEnding
  | .encode => withOperand o.pktIn fun p => completes (storeFrame (encodeFrame p))
  | .decode => withOperand o.bufIn fun buf => withOperand o.offIn fun off =>
      if h : off + frameLen ≤ buf.length then
        completes fun r => { r with
          pktOut := .holds (parseFrame (readFrame buf off h)), offOut := .holds (off + frameLen) }
      else truncated
  | .buildRequest => completes (storeFrame (encodeFrame requestPacket))
  | .flagsPack => withOperand o.fldIn fun f =>
      completes fun r => { r with flagsOut := .holds (packFlags f) }
  | .flagsUnpack => withOperand o.byteIn fun b =>
      completes fun r => { r with fldOut := .holds (unpackFlags b) }
  | .ts64ToLocal => withOperand o.ts64In fun t =>
      completes fun r => { r with localOut := .holds (toLocal c t) }
  | .ts32ToNanos => withOperand o.ts32In fun d =>
      completes fun r => { r with nanosOut := .holds (toNanos d) }
  | .refidRender => withOperand o.stratumIn fun st => withOperand o.refidIn fun r =>
      completes fun res => { res with textOut := .holds (render st r) }

/-- The state the command `i` leaves from `s` when it ends in this way. -/
def CommandEnding.apply (i : Instr) (s : State) : CommandEnding → State
  | completes write => complete (write s.results) s
  | truncated => raiseTruncatedPacket s
  | unwritten => raiseUnwrittenPort i s

theorem requireWritten_eq_apply {α : Type} {i : Instr} {p : Slot α} {s : State} {k : α → State}
    {k' : α → CommandEnding} (h : ∀ v, k v = (k' v).apply i s) :
    requireWritten i p s k = (CommandEnding.withOperand p k').apply i s := by
  cases p with
  | unwritten => rfl
  | holds v => exact h v

/-- The meaning of a command: the state its ending leaves, under an admitted configuration. -/
theorem exec_eq (i : Instr) (s : State) :
    exec i s = underConfig s ((endingOf s.config s.operands i).apply i s) := by
  cases i with
  | buildRequest => rfl
  | decode =>
    refine congrArg (underConfig s) (requireWritten_eq_apply fun buf => requireWritten_eq_apply fun o => ?_)
    split <;> rfl
  | refidRender =>
    exact congrArg (underConfig s) (requireWritten_eq_apply fun _ => requireWritten_eq_apply fun _ => rfl)
  | encode | flagsPack | flagsUnpack | ts64ToLocal | ts32ToNanos =>
    exact congrArg (underConfig s) (requireWritten_eq_apply fun _ => rfl)

theorem exec_admitted (i : Instr) {s : State} (h : admitted s.config = true) :
    exec i s = .next ((endingOf s.config s.operands i).apply i s) := by
  rw [exec_eq, underConfig_admitted h]

@[simp] theorem withOperand_eq_completes {α : Type} {p : Slot α} {k : α → CommandEnding}
    {w : Results → Results} :
    CommandEnding.withOperand p k = .completes w ↔ ∃ v, p = .holds v ∧ k v = .completes w := by
  cases p <;> simp [CommandEnding.withOperand]

@[simp] theorem withOperand_eq_truncated {α : Type} {p : Slot α} {k : α → CommandEnding} :
    CommandEnding.withOperand p k = .truncated ↔ ∃ v, p = .holds v ∧ k v = .truncated := by
  cases p <;> simp [CommandEnding.withOperand]

/-- What the command `i` can write to the result registers when it completes under the configuration `c`. -/
inductive Writes (c : Config) : Instr → (Results → Results) → Prop
  | encode (p : NtpPacket) : Writes c .encode (storeFrame (encodeFrame p))
  | decode (p : NtpPacket) (off : Nat) : Writes c .decode fun r =>
      { r with pktOut := .holds p, offOut := .holds (off + frameLen) }
  | buildRequest : Writes c .buildRequest (storeFrame (encodeFrame requestPacket))
  | flagsPack (f : FlagFields) : Writes c .flagsPack fun r =>
      { r with flagsOut := .holds (packFlags f) }
  | flagsUnpack (b : Byte) : Writes c .flagsUnpack fun r =>
      { r with fldOut := .holds (unpackFlags b) }
  | ts64ToLocal (t : NtpTimestamp64) : Writes c .ts64ToLocal fun r =>
      { r with localOut := .holds (toLocal c t) }
  | ts32ToNanos (d : NtpTimestamp32) : Writes c .ts32ToNanos fun r =>
      { r with nanosOut := .holds (toNanos d) }
  | refidRender (st : Byte) (id : RefId) : Writes c .refidRender fun r =>
      { r with textOut := .holds (render st id) }

theorem writes_of_completes {c : Config} {o : Operands} {i : Instr} {w : Results → Results}
    (h : endingOf c o i = .completes w) : Writes c i w := by
  cases i <;> simp only [endingOf, withOperand_eq_completes] at h
  case buildRequest =>
    cases h
    exact .buildRequest
  case decode =>
    obtain ⟨buf, -, off, -, h⟩ := h
    split at h <;> cases h
    exact .decode _ off
  case refidRender =>
    obtain ⟨st, -, id, -, ⟨⟩⟩ := h
    exact .refidRender st id
  all_goals
    obtain ⟨v, -, ⟨⟩⟩ := h
    constructor

/-- Only DECODE ends with TRUNCATED_PACKET (60_exceptions.md R201). -/
theorem eq_decode_of_truncated {c : Config} {o : Operands} {i : Instr}
    (h : endingOf c o i = .truncated) : i = .decode := by
  cases i <;> simp [endingOf] at h ⊢

end Sys2Proof.Machine
end

section
/-! The invariant `State.Inv`, in two parts: what holds of the registers and the run whatever STATUS is,
which every update of the state keeps, and what STATUS says of them, which the end of a command
establishes. -/

namespace Sys2Proof.Machine

/-- What `State.Inv` says of the result registers alone. -/
structure ResultsInv (c : Config) (r : Results) : Prop where
  decodeTogether : r.pktOut.written = r.offOut.written
  offOutBound : r.offOut.All fun n => 48 ≤ n
  localRange : r.localOut.All fun v => c.epochOffset ≤ v.toInt ∧ v.toInt ≤ largestLocal c
  nanosBound : r.nanosOut.All fun v => v.toNat ≤ 65535999984741
  textLength : r.textOut.All fun b => b.length ≤ 4 ∨ (7 ≤ b.length ∧ b.length ≤ 15)

/-- What `State.Inv` says without STATUS. -/
structure RegistersInv (s : State) : Prop where
  configAdmitted : admitted s.config = true
  faultsReserved : s.faults &&& 0xFC#8 = 0#8
  faultsRecorded : s.faults ≠ 0#8 → s.run.faulted = true
  hostIndex : s.run.h ≤ s.run.program.length
  results : ResultsInv s.config s.results

/-- What `State.Inv` says for each STATUS. -/
def StatusInv (s : State) : Prop :=
  match s.status with
  | .none => s.results = .reset ∧ s.faults &&& illegalCommandBit = 0#8
  | .ok => True
  | .truncatedPacket => s.results.pktOut = .unwritten ∧ s.results.offOut = .unwritten
  | .illegalCommand => s.faults &&& illegalCommandBit = illegalCommandBit
  | .unwrittenPort => s.faults &&& unwrittenPortBit = unwrittenPortBit

theorem State.inv_iff {s : State} : s.Inv ↔ RegistersInv s ∧ StatusInv s := by
  constructor
  · intro h
    refine ⟨⟨h.configAdmitted, h.faultsReserved, h.faultsRecorded, h.hostIndex, h.decodeTogether,
      h.offOutBound, h.localRange, h.nanosBound, h.textLength⟩, ?_⟩
    unfold StatusInv
    split
    next hs => exact h.statusNone hs
    next => trivial
    next hs => exact h.statusTruncated hs
    next hs => exact h.statusIllegal hs
    next hs => exact h.statusUnwritten hs
  · rintro ⟨⟨hc, hr, hf, hh, hres⟩, hst⟩
    unfold StatusInv at hst
    exact {
      configAdmitted := hc, faultsReserved := hr, faultsRecorded := hf, hostIndex := hh
      decodeTogether := hres.decodeTogether, offOutBound := hres.offOutBound
      localRange := hres.localRange, nanosBound := hres.nanosBound, textLength := hres.textLength
      statusNone := fun h => by simpa only [h] using hst
      statusTruncated := fun h => by simpa only [h] using hst
      statusIllegal := fun h => by simpa only [h] using hst
      statusUnwritten := fun h => by simpa only [h] using hst }

section Results
variable {c : Config} {r : Results}

theorem resultsInv_reset (c : Config) : ResultsInv c .reset :=
  ⟨rfl, trivial, trivial, trivial, trivial⟩

theorem ResultsInv.clearResults (h : ResultsInv c r) (i : Instr) :
    ResultsInv c (clearResults i r) := by
  obtain ⟨hd, ho, hl, hn, ht⟩ := h
  cases i with
  | decode => exact ⟨rfl, trivial, hl, hn, ht⟩
  | ts64ToLocal => exact ⟨hd, ho, trivial, hn, ht⟩
  | ts32ToNanos => exact ⟨hd, ho, hl, trivial, ht⟩
  | refidRender => exact ⟨hd, ho, hl, hn, trivial⟩
  | encode | buildRequest | flagsPack | flagsUnpack => exact ⟨hd, ho, hl, hn, ht⟩

/-- A conversion under an admitted configuration stays between `E` and the largest result
(42_timestamp.md R161). -/
theorem toLocal_range (hc : admitted c = true) (t : NtpTimestamp64) :
    c.epochOffset ≤ (toLocal c t).toInt ∧ (toLocal c t).toInt ≤ largestLocal c := by
  rw [toLocal_toInt hc]
  exact localTime_range c t

theorem renderText_length (r : RefId) : (renderText r).length ≤ 4 :=
  (List.takeWhile_sublist _).length_le.trans_eq r.length_toList

theorem renderIpv4_length (r : RefId) :
    7 ≤ (renderIpv4 r).length ∧ (renderIpv4 r).length ≤ 15 := by
  have h0 := decimal_length r[0]
  have h1 := decimal_length r[1]
  have h2 := decimal_length r[2]
  have h3 := decimal_length r[3]
  simp only [renderIpv4, List.length_append, List.length_singleton]
  omega

/-- The lengths of TEXT_OUT (43_refid.md R183). -/
theorem render_length (st : Byte) (r : RefId) :
    (render st r).length ≤ 4 ∨ (7 ≤ (render st r).length ∧ (render st r).length ≤ 15) := by
  unfold render
  split
  · exact .inl (renderText_length r)
  · exact .inr (renderIpv4_length r)

/-- A command that completes writes values in their ranges. -/
theorem ResultsInv.writes (h : ResultsInv c r) (hc : admitted c = true) {i : Instr}
    {w : Results → Results} (hw : Writes c i w) : ResultsInv c (w r) := by
  obtain ⟨hd, ho, hl, hn, ht⟩ := h
  cases hw with
  | decode p off => exact ⟨rfl, Nat.le_add_left 48 off, hl, hn, ht⟩
  | ts64ToLocal t => exact ⟨hd, ho, toLocal_range hc t, hn, ht⟩
  | ts32ToNanos d => exact ⟨hd, ho, hl, (toNanos_toNat d).trans_le (nanos_le d), ht⟩
  | refidRender st id => exact ⟨hd, ho, hl, hn, render_length st id⟩
  | encode | buildRequest | flagsPack | flagsUnpack => exact ⟨hd, ho, hl, hn, ht⟩

end Results

section Updates
variable {s : State}

/-- Raising one of the two faults records it in the run and leaves the reserved bits zero
(10_state.md R35, 60_exceptions.md R209). -/
theorem RegistersInv.raiseFault (h : RegistersInv s) {bit : BitVec 8}
    (hbit : bit &&& 0xFC#8 = 0#8) : RegistersInv (raiseFault bit s) where
  configAdmitted := h.configAdmitted
  faultsReserved := by
    rw [raiseFault_faults, BitVec.and_or_distrib_right, h.faultsReserved, hbit, BitVec.or_zero]
  faultsRecorded _ := rfl
  hostIndex := h.hostIndex
  results := h.results

theorem RegistersInv.endCommand (h : RegistersInv s) (st : Status) : RegistersInv (endCommand st s) :=
  { h with }

theorem RegistersInv.setResults (h : RegistersInv s) {r : Results} (hr : ResultsInv s.config r) :
    RegistersInv { s with results := r } :=
  { h with results := hr }

/-- A command that fails with a FAULTS bit (60_exceptions.md R208). -/
theorem RegistersInv.failCommand_some (h : RegistersInv s) {bit : BitVec 8}
    (hbit : bit &&& 0xFC#8 = 0#8) (st : Status) {r : Results} (hr : ResultsInv s.config r) :
    RegistersInv (failCommand st (some bit) r s) :=
  ((h.setResults hr).raiseFault hbit).endCommand st

/-- A fault that has been raised is in FAULTS. -/
theorem or_and_self_right (f bit : BitVec 8) : (f ||| bit) &&& bit = bit := by
  ext i hi
  simpa using Or.inr

theorem inv_complete (h : s.Inv) {r : Results} (hr : ResultsInv s.config r) :
    (complete r s).Inv :=
  State.inv_iff.2 ⟨((State.inv_iff.1 h).1.setResults hr).endCommand .ok, trivial⟩

theorem inv_raiseTruncatedPacket (h : s.Inv) : (raiseTruncatedPacket s).Inv :=
  have hreg := (State.inv_iff.1 h).1
  State.inv_iff.2 ⟨(hreg.setResults (hreg.results.clearResults .decode)).endCommand .truncatedPacket,
    rfl, rfl⟩

theorem inv_raiseIllegalCommand (h : s.Inv) : (raiseIllegalCommand s).Inv :=
  have hreg := (State.inv_iff.1 h).1
  State.inv_iff.2 ⟨hreg.failCommand_some rfl .illegalCommand hreg.results,
    or_and_self_right s.faults illegalCommandBit⟩

theorem inv_raiseUnwrittenPort (h : s.Inv) (i : Instr) : (raiseUnwrittenPort i s).Inv :=
  have hreg := (State.inv_iff.1 h).1
  State.inv_iff.2 ⟨hreg.failCommand_some rfl .unwrittenPort (hreg.results.clearResults i),
    or_and_self_right s.faults unwrittenPortBit⟩

theorem inv_resetBlock (h : s.Inv) : (resetBlock s).Inv :=
  State.inv_iff.2 ⟨⟨h.configAdmitted, BitVec.zero_and, fun hne => absurd rfl hne, h.hostIndex,
    resultsInv_reset s.config⟩, rfl, BitVec.zero_and⟩

/-- No clause speaks of the operand ports. -/
theorem inv_setOperands (h : s.Inv) (o : Operands) : State.Inv { s with operands := o } :=
  { h with }

/-- No clause speaks of the value last read. -/
theorem inv_setReadValue (h : s.Inv) (v : Option PortValue) :
    State.Inv { s with run := { s.run with readValue := v } } :=
  { h with }

/-- UnwrittenPort in a READ leaves STATUS as it is (60_exceptions.md R203): the bit it sets is not bit 0,
and the bits that are set stay. -/
theorem inv_raiseFault_unwrittenPortBit (h : s.Inv) : (raiseFault unwrittenPortBit s).Inv := by
  obtain ⟨hreg, hst⟩ := State.inv_iff.1 h
  refine State.inv_iff.2 ⟨hreg.raiseFault rfl, ?_⟩
  unfold StatusInv at hst ⊢
  rw [raiseFault_status]
  split at hst
  next =>
    refine ⟨hst.1, ?_⟩
    rw [raiseFault_faults, BitVec.and_or_distrib_right, hst.2]
    rfl
  next => trivial
  next => exact hst
  next =>
    show (s.faults ||| unwrittenPortBit) &&& illegalCommandBit = illegalCommandBit
    rw [BitVec.and_or_distrib_right, hst]
    rfl
  next => exact or_and_self_right s.faults unwrittenPortBit

theorem inv_advance (h : s.Inv) (hlt : s.run.h < s.run.program.length) : (advance s).Inv :=
  { h with hostIndex := hlt }

end Updates

end Sys2Proof.Machine
end

section
/-! Every host action, and so every step, keeps the invariant; and what it leaves of the run. -/

namespace Sys2Proof.Machine

section Run
variable {s t : State}

/-- A transition that takes no action of the program: the configuration, the program and the host index
are as before. -/
structure SameRun (s t : State) : Prop where
  config : t.config = s.config
  program : t.run.program = s.run.program
  h : t.run.h = s.run.h

theorem sameRun_failCommand (st : Status) (b : Option (BitVec 8)) (r : Results) (s : State) :
    SameRun s (failCommand st b r s) := by
  cases b <;> exact ⟨rfl, rfl, rfl⟩

/-- No command takes an action, or changes the configuration. -/
theorem sameRun_exec {i : Instr} (h : exec i s = .next t) : SameRun s t := by
  obtain ⟨-, ⟨r, rfl, -⟩ | rfl | ⟨-, rfl⟩⟩ := exec_next_cases h
  · exact ⟨rfl, rfl, rfl⟩
  · exact sameRun_failCommand _ _ _ s
  · exact sameRun_failCommand _ _ _ s

theorem sameRun_issueCommand {w : Byte} (h : issueCommand w s = .next t) : SameRun s t := by
  obtain ⟨i, -, hi⟩ | ⟨e, -, he⟩ := issueCommand_cases w s
  · exact sameRun_exec (hi.symm.trans h)
  · obtain ⟨-, rfl⟩ := underConfig_next_iff.1 (he.symm.trans h)
    exact sameRun_failCommand _ _ _ s

/-- The index is advanced by the step, not by the action (10_state.md R45). -/
theorem sameRun_act {a : HostAction} (h : act a s = .next t) : SameRun s t := by
  cases a with
  | write n v =>
    obtain ⟨w, -, -, hw⟩ | ⟨p, o, -, -, -, rfl⟩ := writePort_next_cases h
    · exact sameRun_issueCommand hw
    · exact ⟨rfl, rfl, rfl⟩
  | issue w => exact sameRun_issueCommand h
  | read n =>
    obtain ⟨-, p, -, ⟨v, -, rfl⟩ | ⟨-, rfl⟩⟩ := readPort_next_cases h
    · exact ⟨rfl, rfl, rfl⟩
    · exact ⟨rfl, rfl, rfl⟩
  | reset =>
    obtain ⟨-, rfl⟩ := underConfig_next_iff.1 h
    exact ⟨rfl, rfl, rfl⟩

theorem inv_exec {i : Instr} (hs : s.Inv) (h : exec i s = .next t) : t.Inv := by
  rw [exec_admitted i hs.configAdmitted] at h
  cases h
  cases he : endingOf s.config s.operands i with
  | completes w =>
    exact inv_complete hs
      ((State.inv_iff.1 hs).1.results.writes hs.configAdmitted (writes_of_completes he))
  | truncated => exact inv_raiseTruncatedPacket hs
  | unwritten => exact inv_raiseUnwrittenPort hs i

theorem inv_issueCommand {w : Byte} (hs : s.Inv) (h : issueCommand w s = .next t) : t.Inv := by
  obtain ⟨i, -, hi⟩ | ⟨e, -, he⟩ := issueCommand_cases w s
  · exact inv_exec hs (hi.symm.trans h)
  · obtain ⟨-, rfl⟩ := underConfig_next_iff.1 (he.symm.trans h)
    exact inv_raiseIllegalCommand hs

theorem inv_act {a : HostAction} (hs : s.Inv) (h : act a s = .next t) : t.Inv := by
  cases a with
  | write n v =>
    obtain ⟨w, -, -, hw⟩ | ⟨p, o, -, -, -, rfl⟩ := writePort_next_cases h
    · exact inv_issueCommand hs hw
    · exact inv_setOperands hs o
  | issue w => exact inv_issueCommand hs h
  | read n =>
    obtain ⟨-, p, -, ⟨v, -, rfl⟩ | ⟨-, rfl⟩⟩ := readPort_next_cases h
    · exact inv_setReadValue hs (some v)
    · exact inv_raiseFault_unwrittenPortBit (inv_setReadValue hs none)
  | reset =>
    obtain ⟨-, rfl⟩ := underConfig_next_iff.1 h
    exact inv_resetBlock hs

theorem h_lt_of_nextAction {a : HostAction} (h : nextAction s = some a) :
    s.run.h < s.run.program.length :=
  (List.getElem?_eq_some_iff.1 h).1

end Run

/-- Settles O46: the action keeps the invariant (`inv_act`), and there being an action at the host index,
its advance stays within the program. -/
theorem everyStepKeepsTheInvariant : Obligations.EveryStepKeepsTheInvariant := by
  intro s t hs hst
  obtain ⟨-, a, u, ha, hu, rfl⟩ := step_next_cases hst
  have hrun := sameRun_act hu
  refine inv_advance (inv_act hs hu) ?_
  rw [hrun.h, hrun.program]
  exact h_lt_of_nextAction ha

/-- Settles O45. -/
theorem invariantHoldsAfterReset : Obligations.InvariantHoldsAfterReset := fun c p hc =>
  State.inv_iff.2 ⟨⟨hc, BitVec.zero_and, fun hne => absurd rfl hne, Nat.zero_le p.length,
    resultsInv_reset c⟩, rfl, BitVec.zero_and⟩

end Sys2Proof.Machine
end

section
/-! What a command makes of the ports (10_state.md R29 to R33, R36): its results are a function of its
operand list and the configuration, and a port outside its result list keeps its slot. -/

namespace Sys2Proof.Machine

/-- A value of one port type is seen as one value. -/
theorem Slot.map_inj {α β : Type} {f : α → β} (hf : ∀ a b, f a = f b → a = b) {p q : Slot α} :
    p.map f = q.map f ↔ p = q := by
  refine ⟨fun h => ?_, congrArg _⟩
  match p, q, h with
  | .unwritten, .unwritten, _ => rfl
  | .holds a, .holds b, h => exact congrArg _ (hf a b (Slot.holds.inj h))

section Slots
variable {s t : State} {i : Instr}

theorem portSlot_of_operands_eq (h : t.operands = s.operands) :
    ∀ p ∈ operandPorts, portSlot t p = portSlot s p := by
  simp [operandPorts, portSlot, h]

theorem operandsOf_subset (i : Instr) : operandsOf i ⊆ operandPorts := by
  cases i <;> decide

/-- A command that ends without success leaves its own results unreadable (10_state.md R31). -/
theorem portSlot_of_cleared {r r' : Results} (hs : s.results = clearResults i r)
    (ht : t.results = clearResults i r') :
    ∀ p ∈ resultsOf i, portWritten s p = false ∧ portSlot t p = portSlot s p := by
  cases i <;> simp [resultsOf, portWritten, portSlot, clearResults, hs, ht]

/-- Result registers that agree but for the list of `i` have the same slots outside it. -/
theorem portSlot_of_clearResults_eq (h : clearResults i t.results = clearResults i s.results) :
    ∀ p ∈ resultPorts, p ∉ resultsOf i → portSlot t p = portSlot s p := by
  cases i <;> simp only [clearResults, Results.mk.injEq] at h <;>
    simp [resultPorts, resultsOf, portSlot, h]

theorem clearResults_idem (i : Instr) (r : Results) :
    clearResults i (clearResults i r) = clearResults i r := by
  cases i <;> rfl

/-- A command leaves every result register outside its list as it was (10_state.md R31). -/
theorem exec_clearResults (h : exec i s = .next t) :
    clearResults i t.results = clearResults i s.results := by
  obtain ⟨-, ⟨r, rfl, hr⟩ | rfl | ⟨rfl, rfl⟩⟩ := exec_next_cases h
  · exact hr
  · exact clearResults_idem i s.results
  · exact clearResults_idem .decode s.results

/-- A command ends the same way in two states whose configurations and operands of its list agree. -/
theorem endingOf_congr (hc : t.config = s.config)
    (h : ∀ p ∈ operandsOf i, portSlot t p = portSlot s p) :
    endingOf t.config t.operands i = endingOf s.config s.operands i := by
  cases i <;> simp [operandsOf, portSlot, Slot.map_inj] at h <;> simp [endingOf, h, hc]

/-- A command that completes overwrites every register of its list, "entirely": whatever the result
registers held (10_state.md R31). -/
theorem portSlot_of_writes {c : Config} {w : Results → Results} {r r' : Results}
    (hw : Writes c i w) (hs : s.results = w r) (ht : t.results = w r') :
    ∀ p ∈ resultsOf i, portWritten s p = true ∧ portSlot t p = portSlot s p := by
  cases hw <;> simp [resultsOf, portWritten, portSlot, hs, ht]

/-- Two states in which a command ends the same way get the same STATUS and results from it, and its
results are written exactly where it ends with OK. -/
theorem apply_results {c : Config} {o : Operands} {e : CommandEnding} (he : endingOf c o i = e)
    (s s' : State) :
    (e.apply i s').status = (e.apply i s).status ∧
      ∀ p ∈ resultsOf i, portWritten (e.apply i s) p = decide ((e.apply i s).status = .ok) ∧
        portSlot (e.apply i s') p = portSlot (e.apply i s) p := by
  cases e with
  | completes w =>
    exact ⟨rfl, portSlot_of_writes (s := complete (w s.results) s) (writes_of_completes he) rfl rfl⟩
  | truncated =>
    obtain rfl := eq_decode_of_truncated he
    exact ⟨rfl, portSlot_of_cleared (s := raiseTruncatedPacket s) rfl rfl⟩
  | unwritten => exact ⟨rfl, portSlot_of_cleared (s := raiseUnwrittenPort i s) rfl rfl⟩

end Slots

/-- Settles O22: such states end the command the same way (`endingOf_congr`). -/
theorem resultsDependOnOperandsAlone : Obligations.ResultsDependOnOperandsAlone := by
  intro s s' i hs hc hop
  have hs' : admitted s'.config = true := hc ▸ hs
  refine ⟨_, _, exec_admitted i hs, exec_admitted i hs', ?_⟩
  rw [endingOf_congr hc hop]
  obtain ⟨hst, hres⟩ := apply_results rfl s s'
  exact ⟨hst, fun p hp => (hres p hp).2⟩

/-- Settles O21: that the values do not depend on the old result registers is O22, of two states that
differ in these alone. -/
theorem resultRegistersFollowTheDiscipline : Obligations.ResultRegistersFollowTheDiscipline := by
  intro s i hs
  obtain ⟨-, hres⟩ := apply_results (i := i) rfl s s
  refine ⟨_, exec_admitted i hs, fun hok p hp => ?_, fun hne p hp => ?_,
    portSlot_of_clearResults_eq (exec_clearResults (exec_admitted i hs)), fun r => ?_⟩
  · rw [(hres p hp).1, hok]
    rfl
  · rw [(hres p hp).1, decide_eq_false hne]
  · obtain ⟨t, t', ht, ht', hsame⟩ := resultsDependOnOperandsAlone s { s with results := r } i hs rfl
      fun p hp => portSlot_of_operands_eq (s := s) (t := { s with results := r }) rfl p
        (operandsOf_subset i hp)
    rw [exec_admitted i hs] at ht
    cases ht
    exact ⟨t', ht', hsame⟩

theorem exec_operands {i : Instr} {s t : State} (h : exec i s = .next t) :
    t.operands = s.operands := by
  obtain ⟨-, ⟨r, rfl, -⟩ | rfl | ⟨-, rfl⟩⟩ := exec_next_cases h
  · rfl
  · exact failCommand_operands ..
  · exact failCommand_operands ..

theorem exec_readValue {i : Instr} {s t : State} (h : exec i s = .next t) :
    t.run.readValue = s.run.readValue := by
  obtain ⟨-, ⟨r, rfl, -⟩ | rfl | ⟨-, rfl⟩⟩ := exec_next_cases h <;> rfl

/-- Settles O23. -/
theorem commandsWriteNoOperandPort : Obligations.CommandsWriteNoOperandPort := by
  refine ⟨rfl, rfl, rfl, rfl, rfl, rfl, rfl, rfl, fun s i hs => ?_⟩
  have h := exec_admitted i hs
  obtain ⟨hconfig, hprogram, hh⟩ := sameRun_exec h
  exact ⟨_, h, exec_operands h, hconfig, hprogram, hh, exec_readValue h⟩

end Sys2Proof.Machine
end

section
/-! The ports by number (10_state.md R27), and what a host reads of them (10_state.md R34, R35, R39). -/

namespace Sys2Proof.Machine

@[simp] theorem portOfNumber_portNumber (p : Port) : portOfNumber (portNumber p) = some p := by
  cases p <;> rfl

theorem portNumber_of_portOfNumber {n : Byte} {p : Port} (h : portOfNumber n = some p) :
    portNumber p = n :=
  eq_of_beq (List.find?_some (p := fun q => portNumber q == n) h)

theorem portSlot_eq_none_iff {s : State} {p : Port} : portSlot s p = none ↔ p = .cmd := by
  cases p <;> simp [portSlot]

/-- The numbers of the operand ports (10_state.md R28). -/
theorem exists_operandPort_iff (n : Byte) :
    (∃ p ∈ operandPorts, portNumber p = n) ↔ 0x10 ≤ n.toNat ∧ n.toNat ≤ 0x18 := by
  revert n
  decide

/-- Settles O2: each row is an evaluation of the map, and there are 256 numbers. -/
theorem portMapNumbersNameThePorts : Obligations.PortMapNumbersNameThePorts :=
  ⟨rfl, rfl, rfl, rfl, rfl, rfl, rfl, rfl, rfl, rfl, rfl, rfl, rfl, rfl, rfl, rfl, rfl, rfl, rfl, rfl,
    rfl, rfl, by decide, portOfNumber_portNumber⟩

/-- Settles O1. -/
theorem resetLeavesEveryPortUnwritten : Obligations.ResetLeavesEveryPortUnwritten := by
  refine fun c => ⟨rfl, ?_, rfl, rfl, ?_, rfl, rfl⟩
  · simp [portSlot, faultsRead]
  · simp [operandPorts, resultPorts, portSlot, Operands.reset, Results.reset]

/-- FAULTS reads with its reserved bits 7:2 zero (10_state.md R35). -/
theorem faultsRead_reserved (f : BitVec 8) : (faultsRead f).extractLsb' 2 6 = 0#6 := by
  rw [faultsRead, BitVec.extractLsb'_and]
  exact BitVec.and_zero

/-- FAULTS reads with its bits 1:0 as held (10_state.md R35). -/
theorem faultsRead_held (f : BitVec 8) : (faultsRead f).extractLsb' 0 2 = f.extractLsb' 0 2 := by
  rw [faultsRead, BitVec.extractLsb'_and]
  exact BitVec.and_allOnes

/-- Settles O36. -/
theorem statusAndFaultsReadAsEncoded : Obligations.StatusAndFaultsReadAsEncoded := by
  intro s
  refine ⟨statusCode s.status, faultsRead s.faults, rfl, rfl, ?_, ?_, ?_, ?_, ?_, ?_,
    faultsRead_reserved s.faults, faultsRead_held s.faults⟩
  case refine_6 => cases s.status <;> decide
  all_goals exact fun h => congrArg statusCode h

/-- CONFIG_E reads as `E`, the result of the all-zeros timestamp (10_state.md R27). -/
theorem configE_toInt {c : Config} (hc : admitted c = true) :
    (BitVec.ofInt 64 c.epochOffset).toInt = c.epochOffset := by
  have h := toLocal_toInt hc ⟨0, 0⟩
  rwa [toLocal, localTime_zero] at h

end Sys2Proof.Machine
end

section
/-! The host actions (10_state.md R40 to R45): which have a move, and the step each one is. -/

namespace Sys2Proof.Machine

section WriteOperand
variable {o o' : Operands} {p : Port} {v : PortValue}

/-- The type of each operand port (10_state.md R27). -/
theorem writeOperand_isSome_iff (o : Operands) (v : PortValue) :
    ((writeOperand o .pktIn v).isSome = true ↔ ∃ x, v = .packet x) ∧
    ((writeOperand o .bufIn v).isSome = true ↔ ∃ x, v = .bytes x) ∧
    ((writeOperand o .offIn v).isSome = true ↔ ∃ x, v = .nat x) ∧
    ((writeOperand o .ts64In v).isSome = true ↔ ∃ x, v = .ts64 x) ∧
    ((writeOperand o .ts32In v).isSome = true ↔ ∃ x, v = .ts32 x) ∧
    ((writeOperand o .byteIn v).isSome = true ↔ ∃ x, v = .byte x) ∧
    ((writeOperand o .fldIn v).isSome = true ↔ ∃ x, v = .fields x) ∧
    ((writeOperand o .stratumIn v).isSome = true ↔ ∃ x, v = .byte x) ∧
    ((writeOperand o .refidIn v).isSome = true ↔ ∃ x, v = .refId x) := by
  cases v <;> simp [writeOperand]

@[simp] theorem writeOperand_cmd (o : Operands) (v : PortValue) : writeOperand o .cmd v = none := rfl

theorem mem_operandPorts_of_writeOperand (h : writeOperand o p v = some o') : p ∈ operandPorts := by
  cases p <;> simp [writeOperand, operandPorts] at h ⊢

/-- Whether a value is of the port's type does not depend on what the ports hold. -/
theorem writeOperand_isSome_eq (o o' : Operands) (p : Port) (v : PortValue) :
    (writeOperand o p v).isSome = (writeOperand o' p v).isSome := by
  unfold writeOperand
  split <;> simp_all

/-- Every operand port takes some value. -/
theorem exists_writeOperand (o : Operands) :
    ∀ p ∈ operandPorts, ∃ v, (writeOperand o p v).isSome = true := by
  simp only [operandPorts, List.forall_mem_cons]
  exact ⟨⟨.packet requestPacket, rfl⟩, ⟨.bytes [], rfl⟩, ⟨.nat 0, rfl⟩, ⟨.ts64 ⟨0, 0⟩, rfl⟩,
    ⟨.ts32 ⟨0, 0⟩, rfl⟩, ⟨.byte 0, rfl⟩, ⟨.fields ⟨0, 0, 0⟩, rfl⟩, ⟨.byte 0, rfl⟩,
    ⟨.refId #v[0, 0, 0, 0], rfl⟩, List.forall_mem_nil _⟩

/-- A WRITE puts the value into its own port and no other (10_state.md R40). -/
theorem portSlot_writeOperand {s : State} (h : writeOperand s.operands p v = some o) :
    portSlot { s with operands := o } = Function.update (portSlot s) p (some (.holds v)) := by
  unfold writeOperand at h
  split at h <;> cases h <;> funext q <;> cases q <;> rfl

end WriteOperand

section Moves
variable {s : State} {n : Byte} {p : Port} {v : PortValue}

theorem writePort_operand {o : Operands} (hp : portOfNumber n = some p)
    (ho : writeOperand s.operands p v = some o) :
    writePort n v s = underConfig s { s with operands := o } := by
  unfold writePort
  split
  next h => cases hp.symm.trans h
  next h =>
    cases hp.symm.trans h
    cases ho
  next h =>
    cases hp.symm.trans h
    rw [ho]

theorem readPort_holds (hp : portOfNumber n = some p) (hv : portSlot s p = some (.holds v)) :
    readPort n s = underConfig s { s with run := { s.run with readValue := some v } } := by
  rw [readPort, hp, Option.bind_some, hv]

theorem readPort_unwritten (hp : portOfNumber n = some p) (hv : portSlot s p = some .unwritten) :
    readPort n s = underConfig s
      (raiseFault unwrittenPortBit { s with run := { s.run with readValue := none } }) := by
  rw [readPort, hp, Option.bind_some, hv]

/-- Which WRITEs have a move: of a u8 to CMD (10_state.md R41), and of a value of its type to an operand
port (R40). -/
theorem allowed_write_iff : (HostAction.write n v).allowed = true ↔
    (portOfNumber n = some .cmd ∧ ∃ w, v = .byte w) ∨
      ∃ p, portOfNumber n = some p ∧ (writeOperand .reset p v).isSome = true := by
  simp only [HostAction.allowed]
  split
  next h => simp [h]
  next h => cases v <;> simp [h]
  next p hne h => simp [h, show p ≠ .cmd from hne]

theorem allowed_read_iff :
    (HostAction.read n).allowed = true ↔ ∃ p, portOfNumber n = some p ∧ p ≠ .cmd := by
  simp only [HostAction.allowed]
  split
  next h => simp [h]
  next p h => simp [h]

/-- Every command answers a next state (70_reset_and_hazards.md R238), and so does an illegal word. -/
theorem issueCommand_next (hc : admitted s.config = true) (w : Byte) :
    ∃ t, issueCommand w s = .next t := by
  obtain ⟨i, -, h⟩ | ⟨e, -, h⟩ := issueCommand_cases w s
  · exact ⟨_, h.trans (exec_admitted i hc)⟩
  · exact ⟨_, h.trans (underConfig_admitted hc)⟩

/-- An allowed action answers a next state. -/
theorem act_next (hc : admitted s.config = true) {a : HostAction} (ha : a.allowed = true) :
    ∃ t, act a s = .next t := by
  cases a with
  | write n v =>
    obtain ⟨hp, w, rfl⟩ | ⟨p, hp, ho⟩ := allowed_write_iff.1 ha
    · obtain rfl := portNumber_of_portOfNumber hp
      exact issueCommand_next hc w
    · rw [writeOperand_isSome_eq _ s.operands] at ho
      obtain ⟨o, ho⟩ := Option.isSome_iff_exists.1 ho
      exact ⟨_, (writePort_operand hp ho).trans (underConfig_admitted hc)⟩
  | issue w => exact issueCommand_next hc w
  | read n =>
    obtain ⟨p, hp, hne⟩ := allowed_read_iff.1 ha
    obtain ⟨slot, hs⟩ := Option.ne_none_iff_exists'.1 (mt portSlot_eq_none_iff.1 hne)
    cases slot with
    | unwritten => exact ⟨_, (readPort_unwritten hp hs).trans (underConfig_admitted hc)⟩
    | holds v => exact ⟨_, (readPort_holds hp hs).trans (underConfig_admitted hc)⟩
  | reset => exact ⟨_, underConfig_admitted hc⟩

theorem writePort_noMove (h : (HostAction.write n v).allowed = false) :
    writePort n v s = .refused .noMove := by
  obtain ⟨hcmd, hop⟩ := not_or.1 (mt allowed_write_iff.2 (Bool.eq_false_iff.1 h))
  unfold writePort
  split
  next => rfl
  next hp =>
    split
    next w => exact absurd ⟨hp, w, rfl⟩ hcmd
    next => rfl
  next p _ hp =>
    split
    next o ho =>
      refine absurd ⟨p, hp, ?_⟩ hop
      rw [writeOperand_isSome_eq _ s.operands, ho]
      rfl
    next => rfl

theorem readPort_noMove (h : (HostAction.read n).allowed = false) :
    readPort n s = .refused .noMove := by
  have hnone : (portOfNumber n).bind (portSlot s) = none := by
    cases hp : portOfNumber n with
    | none => rfl
    | some p =>
      refine portSlot_eq_none_iff.2 (not_not.1 fun hne => ?_)
      exact Bool.false_ne_true (h.symm.trans (allowed_read_iff.2 ⟨p, hp, hne⟩))
  rw [readPort, hnone]

/-- An access the spec has no move for is refused (10_state.md R44). -/
theorem act_noMove {a : HostAction} (ha : a.allowed = false) : act a s = .refused .noMove := by
  cases a with
  | write n v => exact writePort_noMove ha
  | read n => exact readPort_noMove ha
  | issue w => cases ha
  | reset => cases ha

end Moves

section Steps
variable {s : State}

/-- A step is the action at the host index and the advance of the index (10_state.md R45). -/
theorem step_of_nextAction (hc : admitted s.config = true) {a : HostAction}
    (ha : nextAction s = some a) : step s = mapNext advance (act a s) := by
  rw [step, runNextAction, if_pos hc, ha]

theorem step_of_act (hc : admitted s.config = true) {a : HostAction} {u : State}
    (ha : nextAction s = some a) (hu : act a s = .next u) : step s = .next (advance u) := by
  rw [step_of_nextAction hc ha, hu, mapNext_next]

/-- A command word comes by ISSUE or by a WRITE to CMD alike (10_state.md R41). -/
theorem step_of_command (hc : admitted s.config = true) {w : Byte}
    (ha : nextAction s = some (.issue w) ∨ nextAction s = some (.write 0x00 (.byte w))) :
    step s = mapNext advance (issueCommand w s) := by
  obtain ha | ha := ha <;> exact step_of_nextAction hc ha

theorem issueCommand_of_decode {w : Byte} {i : Instr} (h : decode w = .ok i) :
    issueCommand w s = exec i s := by
  rw [issueCommand, h]

theorem decodeTableWord_eq_some {w : Nat} {i : Instr} (h : decodeTableWord 8 w = some i) :
    w < 256 ∧ decode (BitVec.ofNat 8 w) = .ok i := by
  unfold decodeTableWord at h
  split at h
  next hw =>
    refine ⟨hw.2, ?_⟩
    split at h
    next hd =>
      cases h
      exact hd
    next => cases h
  next => cases h

end Steps

/-- Settles O38: `act_noMove` and `act_next`; the accesses are `allowed_write_iff` and the port map. -/
theorem accessesOutsideTheMapHaveNoMove : Obligations.AccessesOutsideTheMapHaveNoMove := by
  refine ⟨fun s a hc ha => ⟨fun hno => ?_, fun hyes => ?_⟩, fun n => ⟨?_, ?_⟩, fun v => ?_, by decide,
    fun w => rfl, rfl⟩
  · rw [step_of_nextAction hc ha, act_noMove hno]
    rfl
  · obtain ⟨u, hu⟩ := act_next hc hyes
    exact ⟨_, step_of_act hc ha hu⟩
  · rintro ⟨v, hv⟩
    obtain ⟨hp, -⟩ | ⟨p, hp, ho⟩ := allowed_write_iff.1 hv
    · exact .inl (portNumber_of_portOfNumber hp).symm
    · obtain ⟨o, ho⟩ := Option.isSome_iff_exists.1 ho
      exact .inr ((exists_operandPort_iff n).1
        ⟨p, mem_operandPorts_of_writeOperand ho, portNumber_of_portOfNumber hp⟩)
  · rintro (rfl | hn)
    · exact ⟨.byte 0, rfl⟩
    · obtain ⟨p, hp, rfl⟩ := (exists_operandPort_iff n).2 hn
      obtain ⟨v, hv⟩ := exists_writeOperand .reset p hp
      exact ⟨v, allowed_write_iff.2 (.inr ⟨p, portOfNumber_portNumber p, hv⟩)⟩
  · refine ⟨fun hv => ?_, fun ⟨w, hw⟩ => allowed_write_iff.2 (.inl ⟨rfl, w, hw⟩)⟩
    obtain ⟨-, hw⟩ | ⟨p, hp, ho⟩ := allowed_write_iff.1 hv
    · exact hw
    · obtain rfl : Port.cmd = p := Option.some.inj hp
      cases ho

/-- Settles O39. -/
theorem everyAllowedActionIsOneStep : Obligations.EveryAllowedActionIsOneStep := by
  intro s a hc ha hyes
  obtain ⟨u, hu⟩ := act_next hc hyes
  obtain ⟨hconfig, hprogram, hh⟩ := sameRun_act hu
  exact ⟨_, step_of_act hc ha hu, congrArg (· + 1) hh, hprogram, hconfig⟩

/-- Settles O34: the move is the one `writePort_operand` gives. -/
theorem writeStoresTheOperand : Obligations.WriteStoresTheOperand := by
  refine ⟨fun s p v hc hp ha hyes => ?_, writeOperand_isSome_iff .reset⟩
  have hnum := portOfNumber_portNumber p
  obtain ⟨hcmd, -⟩ | ⟨q, hq, ho⟩ := allowed_write_iff.1 hyes
  · cases hnum.symm.trans hcmd
    exact absurd hp (by decide)
  · cases hnum.symm.trans hq
    rw [writeOperand_isSome_eq _ s.operands] at ho
    obtain ⟨o, ho⟩ := Option.isSome_iff_exists.1 ho
    have hslot := portSlot_writeOperand ho
    refine ⟨_, step_of_act hc ha ((writePort_operand hnum ho).trans (underConfig_admitted hc)), ?_, ?_,
      rfl, rfl, rfl⟩
    · exact (congrFun hslot p).trans (Function.update_self ..)
    · exact fun r hr => (congrFun hslot r).trans (Function.update_of_ne hr ..)

/-- Settles O35: the moves are those `readPort_holds` and `readPort_unwritten` give. -/
theorem readReturnsTheValueOrFaults : Obligations.ReadReturnsTheValueOrFaults := by
  refine ⟨fun s p v hc ha hv => ?_, fun s p hc ha hv => ?_,
    fun s => ⟨rfl, fun hc => ⟨_, rfl, configE_toInt hc⟩⟩, fun s => ?_, fun α f v => ⟨rfl, rfl⟩⟩
  · exact step_of_act hc ha
      ((readPort_holds (portOfNumber_portNumber p) hv).trans (underConfig_admitted hc))
  · exact step_of_act hc ha
      ((readPort_unwritten (portOfNumber_portNumber p) hv).trans (underConfig_admitted hc))
  · exact ⟨rfl, rfl, rfl, rfl, rfl, rfl, rfl, rfl, rfl, rfl, rfl, rfl, rfl, rfl, rfl, rfl, rfl, rfl⟩

/-- Settles O5: by `issueCommand_of_decode`; `nextAction_placeAction` gives the placed word. -/
theorem stepRunsTheDecodedInstruction : Obligations.StepRunsTheDecodedInstruction := by
  refine ⟨fun s w i hc ha hd => ⟨?_, ?_⟩, fun s w i hc hd => ?_⟩
  · cases i <;> rfl
  · rw [step_of_command hc ha, issueCommand_of_decode hd]
  · obtain ⟨hw, hd⟩ := decodeTableWord_eq_some hd
    have ha : nextAction (s.withFetchWord 8 w) = some (.issue (BitVec.ofNat 8 w)) := by
      rw [State.withFetchWord, nextAction_placeAction, Nat.mod_eq_of_lt (b := 2 ^ 8) hw]
    exact ⟨ha, by rw [step_of_command (s := s.withFetchWord 8 w) hc (.inl ha), issueCommand_of_decode hd]⟩

end Sys2Proof.Machine
end

section
/-! A command issued twice (20_memory.md R60): no command changes an operand port or the configuration, so
the second one ends as the first did; and an ending applied to the state it left changes nothing in it. -/

namespace Sys2Proof.Machine

/-- What a completing command writes does not depend on what the registers held (10_state.md R31). -/
theorem Writes.idem {c : Config} {i : Instr} {w : Results → Results} (hw : Writes c i w)
    (r : Results) : w (w r) = w r := by
  cases hw <;> rfl

/-- FAULTS is sticky (10_state.md R35): failing again the same way sets nothing new. -/
theorem failCommand_idem (st : Status) (b : Option (BitVec 8)) (r : Results) (s : State) :
    failCommand st b r (failCommand st b r s) = failCommand st b r s := by
  cases b with
  | none => rfl
  | some bit => simp only [failCommand, raiseFault, endCommand, BitVec.or_assoc, BitVec.or_self]

theorem CommandEnding.apply_idem {c : Config} {o : Operands} {i : Instr} {e : CommandEnding}
    (he : endingOf c o i = e) (s : State) : e.apply i (e.apply i s) = e.apply i s := by
  cases e with
  | completes w => exact congrArg (complete · s) ((writes_of_completes he).idem s.results)
  | truncated =>
    simp only [apply, raiseTruncatedPacket, failCommand_results, clearResults_idem, failCommand_idem]
  | unwritten =>
    simp only [apply, raiseUnwrittenPort, failCommand_results, clearResults_idem, failCommand_idem]

/-- Every command answers its own next state when it is issued again. -/
theorem exec_idem {i : Instr} {s t : State} (h : exec i s = .next t) : exec i t = .next t := by
  have hconfig := (sameRun_exec h).config
  have hoperands := exec_operands h
  obtain ⟨hs, ht⟩ := underConfig_next_iff.1 ((exec_eq i s).symm.trans h)
  rw [exec_admitted i (hconfig ▸ hs), hconfig, hoperands, ← ht, CommandEnding.apply_idem rfl]

/-- Settles O42: `exec_idem`, whichever way DECODE ends. -/
theorem decodeIsIdempotent : Obligations.DecodeIsIdempotent := by
  intro s _ _ hs _ _
  have hnext := exec_admitted .decode hs
  exact ⟨_, hnext, exec_idem hnext⟩

end Sys2Proof.Machine
end

section
/-! The lines of a host program (30_encoding.md R83): a line's tokens are those of its parts, the word it begins
with and the literals after it, so what a line assembles to follows from what the reader of each literal makes
of it. -/

namespace Sys2Proof.Machine

/-- A word, whose first character says whether it is a name or a number, is one token. -/
theorem lexesOpen_word {cs : List Char} {t : Token} (hw : cs.all isWordChar = true)
    (ht : wordToken cs = some t) : LexesOpen cs [t] := by
  have hne : cs ≠ [] := by rintro rfl; simp [wordToken] at ht
  have hlex := fun ts => lex_word ts cs hne (List.all_eq_true.1 hw)
  refine fun ts => ⟨fun d rest hd hq => ?_, fun pre hp => ?_⟩
  · simp [List.foldl_append, hlex, lexChar, hd, hq, ht]
  · simp [lexLine, List.foldl_append, hp, hlex, ht]

/-- A blank ends open text and is no token. -/
theorem LexesOpen.blank {cs : List Char} {toks : List Token} (h : LexesOpen cs toks) :
    Lexes (cs ++ [' ']) toks := by
  intro ts rest
  rw [List.append_assoc, List.singleton_append, (h ts).1 ' ' rest (by decide) (by decide)]
  rfl

/-- A line that begins with the word `w` and goes on after a blank. -/
theorem assembleLine_word {w : String} (hw : w.toList.all isWordChar = true)
    (ht : wordToken w.toList = some (.word w.toList)) {cs : List Char} {toks : List Token}
    (h : LexesOpen cs toks) :
    assembleLine (lineOf (w ++ " ") cs) = lineActions (w.toList.map Char.toLower) toks := by
  have hline := (lexesOpen_word hw ht).blank.open_append h
  rw [lineOf, String.toList_append]
  exact assembleLine_of hline rfl

/-- The actions `f` makes of the last operand of a line, or its error. -/
theorem readLast_assembled {α : Type} {r : Reader α} {x : Option α} {toks : List Token}
    (f : α → List HostAction) (h : ∀ ts, r (toks ++ ts) = readResult x ts) :
    (do let v ← readLast r toks; .ok (f v)) = assembled (x.map f) := by
  rw [readLast_result h]
  cases x <;> rfl

/-- A reader followed by a function of the value it read. -/
theorem ReadAs.map {α β : Type} {cs : List Char} {r : Reader α} {x : Option α} (f : α → β)
    (h : ReadAs cs r x) :
    ReadAs cs (fun ts => do let (v, ts) ← r ts; .ok (f v, ts)) (x.map f) := by
  obtain ⟨toks, hlex, hread⟩ := h
  refine ⟨toks, hlex, fun ts => ?_⟩
  simp only [hread]
  cases x <;> rfl

/-! Port names: `read`, `set` and `.cmd`. -/

@[simp] theorem readPortName_portName (p : Port) (ts : List Token) :
    readPortName (.word (portName p).toList :: ts) = .ok (p, ts) := by
  cases p <;> rfl

theorem lexesOpen_portName (p : Port) :
    LexesOpen (portName p).toList [.word (portName p).toList] :=
  lexesOpen_word (by cases p <;> rfl) (by cases p <;> rfl)

/-- `read` of a port name is the READ of that port. -/
theorem assembleLine_read (p : Port) :
    assembleLine (lineOf "read " (portName p).toList) = .ok [.read (portNumber p)] :=
  (assembleLine_word (w := "read") rfl rfl (lexesOpen_portName p)).trans
    (readLast_assembled (x := some p) (fun p => [.read (portNumber p)]) (readPortName_portName p))

/-- `.cmd` of a literal is the ISSUE of its value, or an error out of range. -/
theorem assembleLine_cmd {cs : List Char} {x : Option Byte} (h : IsUnsignedLiteral 8 cs x) :
    assembleLine (lineOf ".cmd " cs) = assembled (x.map fun w => [.issue w]) := by
  obtain ⟨toks, hlex, hread⟩ := readAs_unsigned h
  exact (assembleLine_word (w := ".cmd") rfl rfl hlex).trans
    (readLast_assembled (fun w => [.issue w]) hread)

theorem lineActions_set (p : Port) (ts : List Token) :
    lineActions "set".toList (.word (portName p).toList :: ts) = (do
      let v ← readLast (readNext (readPortValue p)) ts
      .ok [setPort p v]) := by
  have hname := readPortName_portName p ts
  rw [lineActions, if_neg (by decide), if_pos rfl, hname]
  rfl

/-- `set` of an operand port is the WRITE of the literal's value to it, or an error out of range. -/
theorem assembleLine_set {α : Type} {p : Port} {r : Reader α} {f : α → PortValue}
    (hp : readPortValue p = readAs r f) {cs : List Char} {x : Option α} (h : ReadAs cs r x) :
    assembleLine (lineOf ("set " ++ portName p ++ ", ") cs) =
      assembled (x.map fun v => [setPort p (f v)]) := by
  obtain ⟨toks, hlex, hread⟩ := h.map f
  have hline := assembleLine_word (w := "set") rfl rfl ((lexesOpen_portName p).blankNext hlex)
  have hlast := readLast_assembled (r := readNext (readPortValue p)) (toks := .punct ',' :: toks)
    (fun v => [setPort p v]) (fun ts => by rw [List.cons_append, readNext_tok, hp]; exact hread ts)
  calc assembleLine (lineOf ("set " ++ portName p ++ ", ") cs)
    _ = assembleLine (lineOf ("set" ++ " ") ((portName p).toList ++ ", ".toList ++ cs)) := by
      simp [lineOf]
    _ = lineActions "set".toList (.word (portName p).toList :: .punct ',' :: toks) := hline
    _ = assembled ((x.map f).map fun v => [setPort p v]) := (lineActions_set p _).trans hlast
    _ = assembled (x.map fun v => [setPort p (f v)]) := by rw [Option.map_map]; rfl

/-- Settles O47: `assembleLine_set` at each operand port, with what the reader of its type makes of the
literals of that type. -/
theorem setLinesWriteTheOperandPorts : Obligations.SetLinesWriteTheOperandPorts :=
  ⟨fun _ _ h => assembleLine_set (p := .pktIn) rfl (readAs_packet h),
    fun _ _ h => assembleLine_set (p := .bufIn) rfl (readAs_bytes h),
    fun _ _ h => assembleLine_set (p := .offIn) rfl (readAs_nat h),
    fun _ _ h => assembleLine_set (p := .ts64In) rfl (readAs_ts64 h),
    fun _ _ h => assembleLine_set (p := .ts32In) rfl (readAs_ts32 h),
    fun _ _ h => assembleLine_set (p := .byteIn) rfl (readAs_unsigned h),
    fun _ _ h => assembleLine_set (p := .fldIn) rfl (readAs_flags h),
    fun _ _ h => assembleLine_set (p := .stratumIn) rfl (readAs_unsigned h),
    fun _ _ h => assembleLine_set (p := .refidIn) rfl (readAs_refId h)⟩

end Sys2Proof.Machine
end

section
/-! Mnemonics in any case of letters, and comments (30_encoding.md R83). -/

namespace Sys2Proof.Machine

/-- A character that `Char.toLower` changes is a letter. -/
theorem isUpper_or_toLower_eq (c : Char) : c.isUpper = true ∨ c.toLower = c :=
  (Bool.eq_false_or_eq_true c.isUpper).imp_right fun h =>
    Char.toLower_eq_of_not_isUpper (by simp [h])

theorem isWordChar_of_toLower {c : Char} (h : isWordChar c.toLower = true) : isWordChar c = true := by
  rcases isUpper_or_toLower_eq c with hup | heq
  · simp [isWordChar, Char.isAlphanum, Char.isAlpha, hup]
  · exact heq ▸ h

/-- A capital letter starts no number. -/
theorem not_number_of_isUpper {c : Char} (h : c.isUpper = true) : (c.isDigit || c == '-') = false := by
  have hlow := (of_decide_eq_true h).1
  have hdigit : ¬ c.val ≤ '9'.val := fun hc => absurd (UInt32.le_trans hlow hc) (by decide)
  have hminus : c ≠ '-' := fun hc => absurd (hc ▸ hlow) (by decide)
  rw [Bool.or_eq_false_iff, beq_eq_false_iff_ne]
  exact ⟨by rw [Char.isDigit, decide_eq_false hdigit, Bool.and_false], hminus⟩

theorem wordToken_of_toLower {cs : List Char}
    (h : wordToken (cs.map Char.toLower) = some (.word (cs.map Char.toLower))) :
    wordToken cs = some (.word cs) := by
  cases cs with
  | nil => simp [wordToken] at h
  | cons c cs =>
    have hc : (c.isDigit || c == '-') = false := by
      rcases isUpper_or_toLower_eq c with hup | heq
      · exact not_number_of_isUpper hup
      · by_contra hnum
        rw [Bool.not_eq_false] at hnum
        simp [wordToken, heq, hnum] at h
    simp [wordToken, hc]

/-- A line of one word whose lower-case form is a name. -/
theorem assembleLine_ofLower {cs w : List Char} (h : cs.map Char.toLower = w)
    (hw : w.all isWordChar = true) (ht : wordToken w = some (.word w)) :
    assembleLine (String.ofList cs) = lineActions w [] := by
  subst h
  have hchars : cs.all isWordChar = true := by
    rw [List.all_map, List.all_eq_true] at hw
    exact List.all_eq_true.2 fun c hc => isWordChar_of_toLower (hw c hc)
  exact assembleLine_of (lexesOpen_word hchars (wordToken_of_toLower ht)) rfl

/-- A mnemonic, in whatever case its letters stand, is the ISSUE of its command word. -/
theorem assembleLine_mnemonic (i : Instr) {cs : List Char}
    (h : cs.map Char.toLower = i.mnemonic.toList.map Char.toLower) :
    assembleLine (String.ofList cs) = .ok [issueOf i] := by
  rw [assembleLine_ofLower h (by cases i <;> rfl) (by cases i <;> rfl)]
  cases i <;> rfl

/-- The lexer is not inside `hex"…"`. -/
def OutsideQuotes (st : List Token × LexMode) : Prop := ∀ acc, st.2 ≠ .hexBytes acc

theorem OutsideQuotes.lexPlain (ts : List Token) (c : Char) : OutsideQuotes (lexPlain ts c) := by
  unfold Machine.lexPlain OutsideQuotes
  split_ifs <;> simp

/-- Only a quote takes the lexer inside quotes. -/
theorem OutsideQuotes.lexChar {st : List Token × LexMode} (h : OutsideQuotes st) {c : Char}
    (hc : c ≠ '"') : OutsideQuotes (lexChar st c) := by
  obtain ⟨ts, mode⟩ := st
  cases mode with
  | plain => exact .lexPlain ts c
  | hexBytes acc => exact absurd rfl (h acc)
  | comment => exact h
  | bad => exact h
  | word acc =>
    simp only [Machine.lexChar, beq_eq_false_iff_ne.2 hc, Bool.false_and, Bool.false_eq_true, if_false]
    split
    · exact fun _ => nofun
    · split
      · exact .lexPlain _ c
      · exact fun _ => nofun

theorem OutsideQuotes.foldl {cs : List Char} (hq : '"' ∉ cs) {st : List Token × LexMode}
    (h : OutsideQuotes st) : OutsideQuotes (cs.foldl Machine.lexChar st) := by
  induction cs generalizing st with
  | nil => exact h
  | cons c cs ih =>
    rw [List.mem_cons, not_or] at hq
    obtain ⟨hc, hcs⟩ := hq
    exact ih hcs (h.lexChar (Ne.symm hc))

theorem lex_comment (ts : List Token) (cs : List Char) :
    cs.foldl lexChar (ts, .comment) = (ts, .comment) :=
  List.foldl_fixed' (fun _ => rfl) cs

theorem lex_bad (ts : List Token) (cs : List Char) : cs.foldl lexChar (ts, .bad) = (ts, .bad) :=
  List.foldl_fixed' (fun _ => rfl) cs

/-- A comment is no token: outside quotes, a line ends at its semicolon. -/
theorem lexLine_comment {cs comment : List Char} (hq : '"' ∉ cs) :
    lexLine (cs ++ ';' :: comment) = lexLine cs := by
  have hout : OutsideQuotes (cs.foldl lexChar ([], .plain)) := .foldl hq fun _ => nofun
  unfold lexLine
  rw [List.foldl_append]
  generalize cs.foldl lexChar ([], .plain) = st at hout ⊢
  obtain ⟨ts, mode⟩ := st
  cases mode with
  | plain =>
    have hchar : lexChar (ts, .plain) ';' = (ts, .comment) := rfl
    rw [List.foldl_cons, hchar, lex_comment]
  | word acc =>
    cases htok : wordToken acc.reverse with
    | none =>
      have hchar : lexChar (ts, .word acc) ';' = (ts, .bad) := by simp only [lexChar, htok]; rfl
      rw [List.foldl_cons, hchar, lex_bad]
      simp only [htok]
    | some t =>
      have hchar : lexChar (ts, .word acc) ';' = (t :: ts, .comment) := by
        simp only [lexChar, htok]; rfl
      rw [List.foldl_cons, hchar, lex_comment]
      simp only [htok]
  | hexBytes acc => exact absurd rfl (hout acc)
  | comment => rw [lex_comment]
  | bad => rw [lex_bad]

theorem assembleLine_comment {cs comment : List Char} (hq : '"' ∉ cs) :
    assembleLine (String.ofList (cs ++ ';' :: comment)) = assembleLine (String.ofList cs) := by
  rw [assembleLine, assembleLine, String.toList_ofList, String.toList_ofList, lexLine_comment hq]

/-- Settles O44: `assembleLine_mnemonic` at each operation, `assembleLine_cmd`, `assembleLine_read` at each
port, and `assembleLine_comment`. -/
theorem assemblyLinesNameTheHostActions : Obligations.AssemblyLinesNameTheHostActions :=
  ⟨assembleLine_mnemonic .encode rfl, assembleLine_mnemonic .decode rfl,
    assembleLine_mnemonic .buildRequest rfl, assembleLine_mnemonic .flagsPack rfl,
    assembleLine_mnemonic .flagsUnpack rfl, assembleLine_mnemonic .ts64ToLocal rfl,
    assembleLine_mnemonic .ts32ToNanos rfl, assembleLine_mnemonic .refidRender rfl,
    fun _ => ⟨assembleLine_mnemonic .encode, assembleLine_mnemonic .decode,
      assembleLine_mnemonic .buildRequest, assembleLine_mnemonic .flagsPack,
      assembleLine_mnemonic .flagsUnpack, assembleLine_mnemonic .ts64ToLocal,
      assembleLine_mnemonic .ts32ToNanos, assembleLine_mnemonic .refidRender⟩,
    fun _ _ => assembleLine_cmd,
    assembleLine_read .cmd, assembleLine_read .status, assembleLine_read .faults,
    assembleLine_read .configU, assembleLine_read .configE, assembleLine_read .pktIn,
    assembleLine_read .bufIn, assembleLine_read .offIn, assembleLine_read .ts64In,
    assembleLine_read .ts32In, assembleLine_read .byteIn, assembleLine_read .fldIn,
    assembleLine_read .stratumIn, assembleLine_read .refidIn, assembleLine_read .frameOut,
    assembleLine_read .pktOut, assembleLine_read .offOut, assembleLine_read .localOut,
    assembleLine_read .nanosOut, assembleLine_read .flagsOut, assembleLine_read .fldOut,
    assembleLine_read .textOut, assembleLine_ofLower (w := "reset".toList) rfl rfl rfl,
    fun _ _ => assembleLine_comment⟩

end Sys2Proof.Machine
end

section
/-! Programs of lines (30_encoding.md R83, 10_state.md R45). -/

namespace Sys2Proof.Machine

/-- An assembly error in any line is an error of the program. -/
theorem assemble_error_of_mem {line : String} {e : AsmError} (he : assembleLine line = .error e)
    {lines : List String} (hl : line ∈ lines) : ∃ e' : AsmError, assemble lines = .error e' := by
  induction hl with
  | head rest => exact ⟨e, by rw [assemble_cons, he]; rfl⟩
  | tail l _ ih =>
    obtain ⟨e', hrest⟩ := ih
    rw [assemble_cons, hrest]
    cases assembleLine l with
    | error e'' => exact ⟨e'', rfl⟩
    | ok a => exact ⟨e', rfl⟩

/-- Settles O49: `assemble_cons` and `assemble_error_of_mem`. -/
theorem programsAreTheirLinesInOrder : Obligations.ProgramsAreTheirLinesInOrder := by
  refine ⟨rfl, fun line lines a b ha hb => ?_, fun line lines e hl he => assemble_error_of_mem he hl⟩
  rw [assemble_cons, ha, hb]
  rfl

/-- A line and the lines after it, where only a literal out of range is an error. -/
theorem assemble_cons_assembled {l : String} {ls : List String} {x y : Option (List HostAction)}
    (hl : assembleLine l = assembled x) (hls : assemble ls = assembled y) :
    assemble (l :: ls) = assembled (do some ((← x) ++ (← y))) := by
  rw [assemble_cons, hl, hls]
  cases x with
  | none => rfl
  | some a => cases y <;> rfl

theorem assemble_mnemonic (i : Instr) : assemble [i.mnemonic] = assembled (some [issueOf i]) := by
  have hline := assembleLine_mnemonic i (cs := i.mnemonic.toList) rfl
  rw [String.ofList_toList] at hline
  exact assemble_cons_assembled (ls := []) (x := some _) (y := some []) hline rfl

end Sys2Proof.Machine
end

section
/-! Pseudo-instructions (30_encoding.md R84): the line of one assembles to its expansion, and so do the lines
that set its operands' ports and issue its operation. -/

namespace Sys2Proof.Machine

/-- The names of the pseudo-instructions: `lineActions_pseudo` ties them to the assembler. -/
def pseudoNames : List String :=
  ["encode", "decode", "decode_at", "pack", "unpack", "to_local", "to_nanos", "render"]

theorem pseudoName_word : ∀ name ∈ pseudoNames,
    name.toList.all isWordChar = true ∧ wordToken name.toList = some (.word name.toList) := by
  decide

theorem readPseudo_nil : ∀ name ∈ pseudoNames, readPseudo name [] = .error .malformed := by
  decide

/-- A name with operands is the pseudo-instruction, also where without it is a mnemonic. -/
theorem lineActions_pseudo {name : String} (hn : name ∈ pseudoNames) (t : Token) (ts : List Token) :
    lineActions (name.toList.map Char.toLower) (t :: ts) = (do
      let q ← readLast (readPseudo name) (t :: ts)
      .ok (expandPseudo q)) := by
  simp only [pseudoNames, List.mem_cons, List.not_mem_nil, or_false] at hn
  rcases hn with rfl | rfl | rfl | rfl | rfl | rfl | rfl | rfl <;> rfl

/-- The line of a pseudo-instruction is its expansion, or an error where an operand is out of range. -/
theorem assembleLine_pseudo {name : String} (hn : name ∈ pseudoNames) {cs : List Char}
    {x : Option Pseudo} (h : ReadAs cs (readPseudo name) x) :
    assembleLine (lineOf (name ++ " ") cs) = assembled (x.map expandPseudo) := by
  obtain ⟨toks, hlex, hread⟩ := h
  obtain ⟨hw, ht⟩ := pseudoName_word name hn
  rw [assembleLine_word hw ht hlex]
  cases toks with
  | nil =>
    have hnil := hread []
    rw [List.append_nil, readPseudo_nil name hn] at hnil
    cases x <;> cases hnil
  | cons t ts =>
    rw [lineActions_pseudo hn]
    exact readLast_assembled expandPseudo hread

/-- Two operands with a comma and a blank between them. -/
theorem ReadAs.pair {α β γ : Type} {a b : List Char} {r : Reader α} {s : Reader β} {x : Option α}
    {y : Option β} (f : α → β → γ) (ha : ReadAs a r x) (hb : ReadAs b s y) :
    ReadAs (a ++ ", ".toList ++ b)
      (fun ts => do
        let (v, ts) ← r ts
        let (w, ts) ← readNext s ts
        .ok (f v w, ts))
      (do some (f (← x) (← y))) := by
  obtain ⟨ta, la, ra⟩ := ha
  obtain ⟨tb, lb, rb⟩ := hb
  refine ⟨_, la.blankNext lb, fun ts => ?_⟩
  simp only [List.append_assoc, List.cons_append, ra]
  cases x with
  | none => rfl
  | some v =>
    simp only [readResult_some, ok_bind, readNext_tok, rb]
    cases y <;> rfl

/-- The operands of `pack`, which are the literals of the fields of a flag literal. -/
theorem readAs_pack {li vn mode : List Char} {a : Option (BitVec 2)} {b c : Option (BitVec 3)}
    (hli : IsUnsignedLiteral 2 li a) (hvn : IsUnsignedLiteral 3 vn b) (hmode : IsUnsignedLiteral 3 mode c) :
    ReadAs (li ++ ", ".toList ++ vn ++ ", ".toList ++ mode) (readPseudo "pack")
      ((do some (FlagFields.mk (← a) (← b) (← c))).map Pseudo.pack) := by
  obtain ⟨t1, l1, r1⟩ := readAs_unsigned hli
  obtain ⟨t2, l2, r2⟩ := readAs_unsigned hvn
  obtain ⟨t3, l3, r3⟩ := readAs_unsigned hmode
  refine ⟨_, (l1.blankNext l2).blankNext l3, fun ts => ?_⟩
  simp only [readPseudo, List.append_assoc, List.cons_append, r1]
  cases a with
  | none => rfl
  | some u =>
  simp only [readResult_some, ok_bind, readNext_tok, r2]
  cases b with
  | none => rfl
  | some v =>
  simp only [readResult_some, ok_bind, readNext_tok, r3]
  cases c <;> rfl

/-- A pseudo-instruction of one operand `x` and the lines that set its port and issue its operation. -/
theorem assembleLine_pseudo_one {name l : String} (hn : name ∈ pseudoNames) {α : Type} {x : Option α}
    {q : α → Pseudo} {a : α → HostAction} {i : Instr} (hq : ∀ v, expandPseudo (q v) = [a v, issueOf i])
    {cs : List Char} (h : ReadAs cs (readPseudo name) (x.map q))
    (hl : assembleLine l = assembled (x.map fun v => [a v])) :
    assembleLine (lineOf (name ++ " ") cs) = assemble [l, i.mnemonic] := by
  rw [assembleLine_pseudo hn h, assemble_cons_assembled hl (assemble_mnemonic i)]
  cases x with
  | none => rfl
  | some v => exact congrArg _ (congrArg some (hq v))

/-- A pseudo-instruction of two operands and the lines that set their ports and issue its operation. -/
theorem assembleLine_pseudo_two {name l m : String} (hn : name ∈ pseudoNames) {α β : Type} {x : Option α}
    {y : Option β} {q : α → β → Pseudo} {a : α → HostAction} {b : β → HostAction} {i : Instr}
    (hq : ∀ v w, expandPseudo (q v w) = [a v, b w, issueOf i])
    {cs : List Char} (h : ReadAs cs (readPseudo name) (do some (q (← x) (← y))))
    (hl : assembleLine l = assembled (x.map fun v => [a v]))
    (hm : assembleLine m = assembled (y.map fun w => [b w])) :
    assembleLine (lineOf (name ++ " ") cs) = assemble [l, m, i.mnemonic] := by
  rw [assembleLine_pseudo hn h,
    assemble_cons_assembled hl (assemble_cons_assembled hm (assemble_mnemonic i))]
  cases x with
  | none => rfl
  | some v =>
    cases y with
    | none => rfl
    | some w => exact congrArg _ (congrArg some (hq v w))

/-- Settles O48: `assembleLine_pseudo_one` and `assembleLine_pseudo_two`, with what O47 says of the lines of
the expansion. -/
theorem pseudoLinesAssembleAsTheirExpansion : Obligations.PseudoLinesAssembleAsTheirExpansion := by
  obtain ⟨pktIn, bufIn, offIn, ts64In, ts32In, byteIn, fldIn, stratumIn, refidIn⟩ :=
    setLinesWriteTheOperandPorts
  refine ⟨fun p x h => ?encode, fun b o bs x hb ho => ?decode, fun o x h => ?decode_at,
    fun li vn mode a b c hli hvn hmode => ?pack, fun b x h => ?unpack, fun t x h => ?to_local,
    fun d x h => ?to_nanos, fun st r x y hst hr => ?render⟩
  case encode =>
    exact assembleLine_pseudo_one (name := "encode") (i := .encode) (by decide) (fun _ => rfl)
      ((readAs_packet h).map _) (pktIn p x h)
  case decode =>
    exact assembleLine_pseudo_two (name := "decode") (i := .decode) (x := some bs)
      (a := fun v => .write 0x11 (.bytes v)) (by decide) (fun _ _ => rfl)
      ((readAs_bytes hb).pair _ (readAs_nat ho)) (bufIn b bs hb) (offIn o x ho)
  case decode_at =>
    exact assembleLine_pseudo_one (name := "decode_at") (i := .decode) (by decide) (fun _ => rfl)
      ((readAs_nat h).map _) (offIn o x h)
  case pack =>
    have hflags := fldIn _ _ ⟨_, ⟨li, vn, mode, a, b, c, hli, hvn, hmode, rfl, rfl⟩, rfl⟩
    exact assembleLine_pseudo_one (name := "pack") (i := .flagsPack) (by decide) (fun _ => rfl)
      (readAs_pack hli hvn hmode) hflags
  case unpack =>
    exact assembleLine_pseudo_one (name := "unpack") (i := .flagsUnpack) (by decide) (fun _ => rfl)
      ((readAs_unsigned h).map _) (byteIn b x h)
  case to_local =>
    exact assembleLine_pseudo_one (name := "to_local") (i := .ts64ToLocal) (by decide) (fun _ => rfl)
      ((readAs_ts64 h).map _) (ts64In t x h)
  case to_nanos =>
    exact assembleLine_pseudo_one (name := "to_nanos") (i := .ts32ToNanos) (by decide) (fun _ => rfl)
      ((readAs_ts32 h).map _) (ts32In d x h)
  case render =>
    exact assembleLine_pseudo_two (name := "render") (i := .refidRender) (by decide) (fun _ _ => rfl)
      ((readAs_unsigned hst).pair _ (readAs_refId hr)) (stratumIn st x hst) (refidIn r y hr)

/-- Settles O43: the port numbers of 10_state.md R27 and the command words of 30_encoding.md R71 stand in
`expandPseudo`. -/
theorem pseudoInstructionsExpandAsListed : Obligations.PseudoInstructionsExpandAsListed :=
  ⟨fun _ => rfl, fun _ _ => rfl, fun _ => rfl, fun _ => rfl, fun _ => rfl, fun _ => rfl, fun _ => rfl,
    fun _ _ => rfl⟩

end Sys2Proof.Machine
end

section
/-! The command word (30_encoding.md R70 to R72): `decode` tests the reserved bits and then looks the operation
up, and both are inverse to how `encode` makes the word. -/

namespace Sys2Proof

theorem decode_eq_ok_iff {w : Byte} {i : Instr} :
    decode w = .ok i ↔ rsvField w = 0 ∧ opMap (opField w) = some i := by
  unfold decode
  split_ifs with h
  · exact iff_of_false nofun fun hw => h hw.1
  · rw [not_not] at h
    cases opMap (opField w) <;> simp [h]

theorem decode_reservedBits {w : Byte} (h : rsvField w ≠ 0) : decode w = .error (.reservedBits w) :=
  if_pos h

theorem decode_reservedOp {w : Byte} (h : rsvField w = 0) (hop : opMap (opField w) = none) :
    decode w = .error (.reservedOp w) := by
  rw [decode, if_neg (not_not.2 h), hop]

/-- A command word is its two fields, `rsv ++ op` (R70). -/
theorem rsvField_append_opField (w : Byte) : rsvField w ++ opField w = w :=
  (BitVec.extractLsb'_append_extractLsb'_eq_extractLsb' (start₂ := 4) (start₁ := 0) rfl).trans
    BitVec.extractLsb'_eq_self

/-- The operation map is inverse to the operations' numbers (R71). -/
theorem opMap_eq_some_iff {op : BitVec 4} {i : Instr} : opMap op = some i ↔ op = opCode i := by
  revert op
  cases i <;> decide

theorem decode_encode (i : Instr) : decode (encode i) = .ok i := by
  cases i <;> rfl

theorem decode_eq_ok_iff_eq_encode {w : Byte} {i : Instr} : decode w = .ok i ↔ w = encode i := by
  constructor
  · rw [decode_eq_ok_iff, opMap_eq_some_iff]
    rintro ⟨hrsv, hop⟩
    rw [← rsvField_append_opField w, hrsv, hop, encode]
  · rintro rfl
    exact decode_encode i

/-- Settles O4: `decode_eq_ok_iff_eq_encode`, and one evaluation over the 256 words. -/
theorem decodeInvertsTheCommandWord : Obligations.DecodeInvertsTheCommandWord :=
  ⟨fun i _ => ⟨decode_encode i, (decode_eq_ok_iff.1 (decode_encode i)).1⟩,
    fun _ _ => decode_eq_ok_iff_eq_encode, fun _ => decode_reservedBits, by decide⟩

/-- The words that R71 leaves reserved have `rsv = 0000` and a number of no operation. -/
theorem opMap_eq_none_of_reserved (w : Byte) (h : w = 0x00 ∨ (0x09 ≤ w.toNat ∧ w.toNat ≤ 0x0F)) :
    rsvField w = 0 ∧ opMap (opField w) = none := by
  revert w
  decide

/-- Settles O3: `decode_encode` at each operation, and the reserved words. -/
theorem operationMapSelectsTheCommands : Obligations.OperationMapSelectsTheCommands :=
  ⟨decode_encode .encode, decode_encode .decode, decode_encode .buildRequest, decode_encode .flagsPack,
    decode_encode .flagsUnpack, decode_encode .ts64ToLocal, decode_encode .ts32ToNanos,
    decode_encode .refidRender, fun w h =>
      have ⟨hrsv, hop⟩ := opMap_eq_none_of_reserved w h
      decode_reservedOp hrsv hop⟩

end Sys2Proof
end

section
/-! Bit packing (40_bitpack.md). `put_be` and `pack_flags` cut a word into the parts that `get_be` and
`unpack_flags` put side by side; two words of parts are equal when their parts are (`append_inj`),
so each pair is inverse. FLAGS_PACK and FLAGS_UNPACK give the packed byte and its fields. -/

namespace Sys2Proof.Machine

section Words

theorem append_inj {n m : Nat} {x x' : BitVec n} {y y' : BitVec m} :
    x ++ y = x' ++ y' ↔ x = x' ∧ y = y' := by
  constructor
  · intro h
    have hx := congrArg (BitVec.extractLsb' m n) h
    have hy := congrArg (BitVec.extractLsb' 0 m) h
    rw [BitVec.extractLsb'_append_eq_left, BitVec.extractLsb'_append_eq_left] at hx
    rw [BitVec.extractLsb'_append_eq_right, BitVec.extractLsb'_append_eq_right] at hy
    exact ⟨hx, hy⟩
  · rintro ⟨rfl, rfl⟩
    rfl

theorem append₃_inj {n m k : Nat} {x x' : BitVec n} {y y' : BitVec m} {z z' : BitVec k} :
    x ++ y ++ z = x' ++ y' ++ z' ↔ x = x' ∧ y = y' ∧ z = z' := by
  simp only [append_inj, and_assoc]

theorem append₄_inj {n m k l : Nat} {x x' : BitVec n} {y y' : BitVec m} {z z' : BitVec k}
    {w w' : BitVec l} :
    x ++ y ++ z ++ w = x' ++ y' ++ z' ++ w' ↔ x = x' ∧ y = y' ∧ z = z' ∧ w = w' := by
  simp only [append_inj, and_assoc]

theorem toNat_append_eq_add {n m : Nat} (x : BitVec n) (y : BitVec m) :
    (x ++ y).toNat = 2 ^ m * x.toNat + y.toNat := by
  rw [BitVec.toNat_append, ← Nat.shiftLeft_add_eq_or_of_lt y.isLt, Nat.shiftLeft_eq, Nat.mul_comm]

/-- A shift and a mask of `len` ones pick out the field of `len` bits at bit `n`. -/
theorem setWidth_ushiftRight_and_mask {w n len : Nat} {v mask : BitVec w}
    (hm : mask.setWidth len = .allOnes len) :
    ((v >>> n) &&& mask).setWidth len = v.extractLsb' n len := by
  rw [BitVec.setWidth_and, hm, BitVec.and_allOnes]
  ext i hi
  simp

end Words

section Primitives
variable {a b c d e f g h : Byte}

theorem getBe16_bytes (v : BitVec 16) : getBe16 (v.extractLsb' 8 8) (v.extractLsb' 0 8) = v :=
  BitVec.extractLsb'_append_extractLsb'

theorem getBe32_bytes (v : BitVec 32) :
    getBe32 (v.extractLsb' 24 8) (v.extractLsb' 16 8) (v.extractLsb' 8 8) (v.extractLsb' 0 8) = v := by
  rw [getBe32,
    BitVec.extractLsb'_append_extractLsb'_eq_extractLsb' (start₂ := 24) (start₁ := 16) rfl,
    BitVec.extractLsb'_append_extractLsb'_eq_extractLsb' (start₂ := 16) (start₁ := 8) rfl]
  exact BitVec.extractLsb'_append_extractLsb'

/-- `get_be16` is the inverse of `put_be16` (R100, R101). -/
theorem putBe16_eq_iff {v : BitVec 16} : putBe16 v = [a, b] ↔ getBe16 a b = v := by
  calc putBe16 v = [a, b]
      ↔ v.extractLsb' 8 8 = a ∧ v.extractLsb' 0 8 = b := by simp [putBe16]
    _ ↔ getBe16 (v.extractLsb' 8 8) (v.extractLsb' 0 8) = getBe16 a b := append_inj.symm
    _ ↔ getBe16 a b = v := by rw [getBe16_bytes, eq_comm]

/-- `get_be32` is the inverse of `put_be32` (R100, R101). -/
theorem putBe32_eq_iff {v : BitVec 32} : putBe32 v = [a, b, c, d] ↔ getBe32 a b c d = v := by
  calc putBe32 v = [a, b, c, d]
      ↔ v.extractLsb' 24 8 = a ∧ v.extractLsb' 16 8 = b ∧ v.extractLsb' 8 8 = c ∧
          v.extractLsb' 0 8 = d := by simp [putBe32]
    _ ↔ getBe32 (v.extractLsb' 24 8) (v.extractLsb' 16 8) (v.extractLsb' 8 8) (v.extractLsb' 0 8) =
          getBe32 a b c d := append₄_inj.symm
    _ ↔ getBe32 a b c d = v := by rw [getBe32_bytes, eq_comm]

/-- `get_ts32` is the inverse of `put_ts32` (R102). -/
theorem putTs32_eq_iff {t : NtpTimestamp32} : putTs32 t = [a, b, c, d] ↔ getTs32 a b c d = t := by
  obtain ⟨s, r⟩ := t
  calc putBe16 s ++ putBe16 r = [a, b] ++ [c, d]
      ↔ putBe16 s = [a, b] ∧ putBe16 r = [c, d] := List.append_eq_append_iff_of_size_eq_left rfl
    _ ↔ getTs32 a b c d = ⟨s, r⟩ := by
      rw [putBe16_eq_iff, putBe16_eq_iff, getTs32, NtpTimestamp32.mk.injEq]

/-- `get_ts64` is the inverse of `put_ts64` (R103). -/
theorem putTs64_eq_iff {t : NtpTimestamp64} :
    putTs64 t = [a, b, c, d, e, f, g, h] ↔ getTs64 a b c d e f g h = t := by
  obtain ⟨s, r⟩ := t
  calc putBe32 s ++ putBe32 r = [a, b, c, d] ++ [e, f, g, h]
      ↔ putBe32 s = [a, b, c, d] ∧ putBe32 r = [e, f, g, h] :=
        List.append_eq_append_iff_of_size_eq_left rfl
    _ ↔ getTs64 a b c d e f g h = ⟨s, r⟩ := by
      rw [putBe32_eq_iff, putBe32_eq_iff, getTs64, NtpTimestamp64.mk.injEq]

end Primitives

section Flags

/-- The flag byte is `LI ++ VN ++ mode` (R105). -/
theorem packFlags_eq_append (f : FlagFields) :
    packFlags f = f.leapIndicator ++ f.version ++ f.mode := by
  rw [← BitVec.setWidth_eq (f.leapIndicator ++ f.version ++ f.mode),
    BitVec.setWidth_append_append_eq_shiftLeft_setWidth_or, packFlags]

theorem packFlags_toNat (f : FlagFields) :
    (packFlags f).toNat = 64 * f.leapIndicator.toNat + 8 * f.version.toNat + f.mode.toNat := by
  rw [packFlags_eq_append, toNat_append_eq_add, toNat_append_eq_add]
  omega

/-- The fields are the bits 7:6, 5:3 and 2:0 of the flag byte (R106). -/
theorem unpackFlags_eq_extract (b : Byte) :
    unpackFlags b = ⟨b.extractLsb' 6 2, b.extractLsb' 3 3, b.extractLsb' 0 3⟩ := by
  have hmode := setWidth_ushiftRight_and_mask (v := b) (n := 0) (mask := 0x07#8) (len := 3) rfl
  rw [BitVec.ushiftRight_zero] at hmode
  rw [unpackFlags, setWidth_ushiftRight_and_mask rfl, setWidth_ushiftRight_and_mask rfl, hmode]

theorem packFlags_unpackFlags (b : Byte) : packFlags (unpackFlags b) = b := by
  rw [packFlags_eq_append, unpackFlags_eq_extract,
    BitVec.extractLsb'_append_extractLsb'_eq_extractLsb' (start₂ := 6) (start₁ := 3) rfl]
  exact BitVec.extractLsb'_append_extractLsb'

theorem packFlags_injective : Function.Injective packFlags := by
  rintro ⟨li, vn, mode⟩ ⟨li', vn', mode'⟩ h
  rw [packFlags_eq_append, packFlags_eq_append] at h
  obtain ⟨rfl, rfl, rfl⟩ := append₃_inj.1 h
  rfl

theorem unpackFlags_packFlags (f : FlagFields) : unpackFlags (packFlags f) = f :=
  packFlags_injective (packFlags_unpackFlags (packFlags f))

end Flags

section Commands
variable {s : State}

@[simp] theorem withOperand_holds {α : Type} (v : α) (k : α → CommandEnding) :
    CommandEnding.withOperand (.holds v) k = k v := rfl

@[simp] theorem withOperand_unwritten {α : Type} (k : α → CommandEnding) :
    CommandEnding.withOperand .unwritten k = .unwritten := rfl

/-- A command that completes answers the state of `AfterOk` (10_state.md R31). -/
theorem exec_afterOk {i : Instr} {w : Results → Results} (hc : admitted s.config = true)
    (hi : endingOf s.config s.operands i = .completes w) :
    ∃ t, exec i s = .next t ∧ AfterOk (w s.results) s t :=
  ⟨_, exec_admitted i hc, by rw [hi]; rfl⟩

/-- A command with an unwritten operand answers the state of `AfterUnwrittenPort` (60_exceptions.md R203). -/
theorem exec_afterUnwrittenPort {i : Instr} (hc : admitted s.config = true)
    (hi : endingOf s.config s.operands i = .unwritten) :
    ∃ t, exec i s = .next t ∧ AfterUnwrittenPort (clearResults i s.results) s t :=
  ⟨_, exec_admitted i hc, by rw [hi]; rfl⟩

end Commands

/-- Settles O27: `get` is the inverse of `put` for each word and timestamp, and `unpack_flags` of
`pack_flags`; an `s8` is its own byte. -/
theorem packingPrimitivesRoundTrip : Obligations.PackingPrimitivesRoundTrip :=
  ⟨fun _ _ _ => ⟨putBe16_eq_iff.1, putBe16_eq_iff.2 rfl⟩,
    fun _ _ _ _ _ => ⟨putBe32_eq_iff.1, putBe32_eq_iff.2 rfl⟩,
    fun _ _ _ _ _ => ⟨putTs32_eq_iff.1, putTs32_eq_iff.2 rfl⟩,
    fun _ _ _ _ _ _ _ _ _ => ⟨putTs64_eq_iff.1, putTs64_eq_iff.2 rfl⟩,
    fun _ _ => ⟨rfl, rfl⟩,
    fun f b => ⟨unpackFlags_packFlags f, packFlags_unpackFlags b⟩⟩

/-- Settles O7: FLAGS_PACK completes with the byte of `packFlags_eq_append`. -/
theorem flagsPackWritesTheFlagByte : Obligations.FlagsPackWritesTheFlagByte := by
  refine ⟨decode_encode .flagsPack, fun s f hc hf => ?_, fun s hc hf => ?_⟩
  · obtain ⟨t, ht, hok⟩ := exec_afterOk (i := .flagsPack) hc (by rw [endingOf, hf, withOperand_holds])
    exact ⟨packFlags f, t, ht, hok, packFlags_eq_append f, packFlags_toNat f⟩
  · exact exec_afterUnwrittenPort (i := .flagsPack) hc (by rw [endingOf, hf, withOperand_unwritten])

/-- Settles O8: FLAGS_UNPACK completes with the fields of `unpackFlags_eq_extract`. -/
theorem flagsUnpackSplitsTheFlagByte : Obligations.FlagsUnpackSplitsTheFlagByte := by
  refine ⟨decode_encode .flagsUnpack, fun s b hc hb => ?_, fun s hc hb => ?_⟩
  · obtain ⟨t, ht, hok⟩ := exec_afterOk (i := .flagsUnpack) hc (by rw [endingOf, hb, withOperand_holds])
    refine ⟨unpackFlags b, t, ht, hok, ?_⟩
    rw [unpackFlags_eq_extract]
    exact ⟨rfl, rfl, rfl⟩
  · exact exec_afterUnwrittenPort (i := .flagsUnpack) hc (by rw [endingOf, hb, withOperand_unwritten])

end Sys2Proof.Machine
end

section
/-! The frame (41_framer.md R130, R133). `encode_frame` cuts the packet's fields into bytes and `parse_frame`
puts the bytes together again, so each round trip is, field by field, that of a packing primitive
(40_bitpack.md R107). A frame read out of a buffer holds the buffer's bytes at the offset
(`readFrame_getElem`). -/

namespace Sys2Proof.Machine

section Vectors

theorem ofFn_getElem_eq_toList {α : Type} {n : Nat} (v : Vector α n) :
    List.ofFn (fun i : Fin n => v[i]) = v.toList :=
  Vector.toList_ofFn.symm.trans (congrArg Vector.toList Vector.ofFn_getElem)

theorem refId_ofBytes (r : RefId) : #v[r[0], r[1], r[2], r[3]] = r :=
  Vector.toList_inj.1 (ofFn_getElem_eq_toList r)

end Vectors

section RoundTrips

theorem parseFrame_encodeFrame (p : NtpPacket) : parseFrame (encodeFrame p) = p := by
  have hflags := unpackFlags_packFlags ⟨p.leapIndicator, p.version, p.mode⟩
  refine (NtpPacket.mk.injEq ..).mpr ⟨congrArg (·.leapIndicator) hflags, congrArg (·.version) hflags,
    congrArg (·.mode) hflags, rfl, rfl, rfl, ?rootDelay, ?rootDispersion, refId_ofBytes _,
    ?reference, ?origin, ?receive, ?transmit⟩
  case rootDelay | rootDispersion => exact putTs32_eq_iff.1 rfl
  case reference | origin | receive | transmit => exact putTs64_eq_iff.1 rfl

theorem encodeBytes_parseFrame (b : Frame) : encodeBytes (parseFrame b) = b.toList := by
  have hflags := packFlags_unpackFlags b[0]
  have hts32 (x y z w : Byte) : putTs32 (getTs32 x y z w) = [x, y, z, w] := putTs32_eq_iff.2 rfl
  have hts64 (x y z w x' y' z' w' : Byte) :
      putTs64 (getTs64 x y z w x' y' z' w') = [x, y, z, w, x', y', z', w'] := putTs64_eq_iff.2 rfl
  simp only [encodeBytes, parseFrame, hflags, hts32, hts64]
  exact ofFn_getElem_eq_toList b

theorem encodeFrame_parseFrame (b : Frame) : encodeFrame (parseFrame b) = b :=
  Vector.toList_inj.1 (encodeBytes_parseFrame b)

theorem encodeFrame_bijective : Function.Bijective encodeFrame :=
  Function.bijective_iff_has_inverse.2 ⟨parseFrame, parseFrame_encodeFrame, encodeFrame_parseFrame⟩

theorem parseFrame_bijective : Function.Bijective parseFrame :=
  Function.bijective_iff_has_inverse.2 ⟨encodeFrame, encodeFrame_parseFrame, parseFrame_encodeFrame⟩

end RoundTrips

section Reading

/-- A buffer that is one frame is read as that frame (20_memory.md R56). -/
theorem readFrame_toList (f : Frame) (h : 0 + 48 ≤ f.toList.length) : readFrame f.toList 0 h = f :=
  Vector.ext fun i hi => by simp [readFrame_getElem]

/-- The frames read where two buffers agree are one frame (41_framer.md R139). -/
theorem readFrame_congr {buf buf' : List Byte} {o o' : Nat} (h : o + 48 ≤ buf.length)
    (h' : o' + 48 ≤ buf'.length) (heq : ∀ i, i < 48 → buf[o + i]? = buf'[o' + i]?) :
    readFrame buf o h = readFrame buf' o' h' := by
  refine Vector.ext fun i hi => ?_
  rw [readFrame_getElem, readFrame_getElem, ← Option.some_inj, ← List.getElem?_eq_getElem,
    ← List.getElem?_eq_getElem]
  exact heq i hi

/-- An `s8` is read as two's complement (40_bitpack.md R104). -/
theorem getS8_toInt (b : Byte) :
    (getS8 b).toInt = if b.toNat < 128 then (b.toNat : Int) else (b.toNat : Int) - 256 := by
  rw [getS8, BitVec.toInt_eq_toNat_cond]
  split_ifs <;> omega

end Reading

end Sys2Proof.Machine
end

section
/-! The framer's commands: ENCODE and BUILD_REQUEST store `encode_frame` of a packet, and DECODE's length check
chooses between the frame at the offset and TRUNCATED_PACKET (41_framer.md R130 to R134). -/

namespace Sys2Proof.Machine

section Framer
variable {s : State} {p : NtpPacket} {f : Frame} {buf : List Byte} {o k : Nat}

theorem exec_encode_holds (hc : admitted s.config = true) (hp : s.operands.pktIn = .holds p) :
    exec .encode s = .next (complete (storeFrame (encodeFrame p) s.results) s) := by
  rw [exec_admitted .encode hc, endingOf, hp]
  rfl

theorem exec_decode_fits (hc : admitted s.config = true) (hb : s.operands.bufIn = .holds buf)
    (ho : s.operands.offIn = .holds o) (h : o + 48 ≤ buf.length) :
    exec .decode s = .next (complete { s.results with
      pktOut := .holds (parseFrame (readFrame buf o h)), offOut := .holds (o + 48) } s) := by
  rw [exec_admitted .decode hc, endingOf, hb, ho, withOperand_holds, withOperand_holds, dif_pos h]
  rfl

theorem exec_decode_short (hc : admitted s.config = true) (hb : s.operands.bufIn = .holds buf)
    (ho : s.operands.offIn = .holds o) (h : buf.length < o + 48) :
    exec .decode s = .next (raiseTruncatedPacket s) := by
  rw [exec_admitted .decode hc, endingOf, hb, ho, withOperand_holds, withOperand_holds,
    dif_neg (Nat.not_le.2 h)]
  rfl

/-- DECODE of a buffer that is one frame. -/
theorem exec_decode_frame (hc : admitted s.config = true) (hb : s.operands.bufIn = .holds f.toList)
    (ho : s.operands.offIn = .holds 0) :
    exec .decode s = .next (complete { s.results with
      pktOut := .holds (parseFrame f), offOut := .holds 48 } s) := by
  rw [exec_decode_fits hc hb ho (by simp), readFrame_toList]

/-- One DECODE of a run of them, where a frame is left: the cursor moves past it (41_framer.md R138). -/
theorem decodeFrames_succ_fits (hc : admitted s.config = true) (hb : s.operands.bufIn = .holds buf)
    (ho : s.operands.offIn = .holds o) (h : o + 48 ≤ buf.length) :
    decodeFrames (k + 1) s = decodeFrames k (copyCursor (complete { s.results with
      pktOut := .holds (parseFrame (readFrame buf o h)), offOut := .holds (o + 48) } s)) := by
  rw [decodeFrames, exec_decode_fits hc hb ho h]
  exact if_pos rfl

/-- Where no frame is left the run of DECODEs ends. -/
theorem decodeFrames_succ_short (hc : admitted s.config = true) (hb : s.operands.bufIn = .holds buf)
    (ho : s.operands.offIn = .holds o) (h : buf.length < o + 48) :
    decodeFrames (k + 1) s = none := by
  rw [decodeFrames, exec_decode_short hc hb ho h]
  exact if_neg nofun

end Framer

/-- Settles O25: `parseFrame_encodeFrame`, of the frame ENCODE stores and DECODE reads. -/
theorem decodeOfEncodeGivesThePacketBack : Obligations.DecodeOfEncodeGivesThePacketBack := by
  refine ⟨parseFrame_encodeFrame, fun s p hc hp => ?_⟩
  refine ⟨encodeFrame p, _, _, exec_encode_holds hc hp, rfl,
    exec_decode_frame (f := encodeFrame p) ?_ rfl rfl, ?_, rfl, rfl⟩
  · exact hc
  · rw [complete_results, parseFrame_encodeFrame]

/-- Settles O26: `encodeFrame_parseFrame`, of the packet DECODE gives and ENCODE reads. -/
theorem encodeOfDecodeGivesTheBytesBack : Obligations.EncodeOfDecodeGivesTheBytesBack := by
  refine ⟨encodeFrame_parseFrame, encodeFrame_bijective, parseFrame_bijective, fun s b hc hb ho => ?_⟩
  refine ⟨parseFrame b, _, _, exec_decode_frame hc hb ho, rfl,
    exec_encode_holds (p := parseFrame b) ?_ rfl, ?_, rfl⟩
  · exact hc
  · rw [complete_results, storeFrame_frameOut, encodeFrame_parseFrame]

/-- Settles O9: each multi-byte field is its own bytes side by side (`getBe16_bytes`, `getBe32_bytes`). -/
theorem encodeWritesTheWireFrame : Obligations.EncodeWritesTheWireFrame := by
  refine ⟨decode_encode .encode, fun s p hc hp => ?_, fun s hc hp => ?_⟩
  · exact ⟨encodeFrame p, _, exec_encode_holds hc hp, rfl, packFlags_eq_append _, rfl, rfl, rfl,
      getBe16_bytes _, getBe16_bytes _, getBe16_bytes _, getBe16_bytes _, rfl, rfl, rfl, rfl,
      getBe32_bytes _, getBe32_bytes _, getBe32_bytes _, getBe32_bytes _,
      getBe32_bytes _, getBe32_bytes _, getBe32_bytes _, getBe32_bytes _⟩
  · exact exec_afterUnwrittenPort (i := .encode) hc (by rw [endingOf, hp, withOperand_unwritten])

/-- Settles O10: `parse_frame` of the frame whose bytes are the buffer's at the offset. -/
theorem decodeParsesTheWireFrame : Obligations.DecodeParsesTheWireFrame := by
  refine ⟨decode_encode .decode, fun s buf o hc hb ho h => ?_⟩
  refine ⟨_, _, exec_decode_fits hc hb ho h, rfl, ?_⟩
  simp [parseFrame, readFrame_getElem, unpackFlags_eq_extract, getS8_toInt, getTs32, getTs64, getBe16,
    getBe32]

/-- Settles O29: both buffers give the same frame (`readFrame_congr`). -/
theorem decodeReadsItsFrameAlone : Obligations.DecodeReadsItsFrameAlone := by
  intro s s' buf buf' o o' hc hc' hb ho hb' ho' h h' heq
  refine ⟨_, _, exec_decode_fits hc hb ho h, exec_decode_fits hc' hb' ho' h', rfl, rfl, ?_, ?_⟩
  · rw [complete_results, complete_results, readFrame_congr h h' heq]
  · rintro rfl
    rfl

/-- Settles O28, by induction on the number of frames: the first DECODE finds none and ends the run, or finds
one, and then it was the last or the others start 48 bytes on. -/
theorem cursorWalksBackToBackFrames : Obligations.CursorWalksBackToBackFrames := by
  intro k s buf o hc hk hb ho
  induction k generalizing s o with
  | zero => cases hk
  | succ k ih =>
    rcases Nat.lt_or_ge buf.length (o + 48) with h | h
    · rw [decodeFrames_succ_short hc hb ho h]
      exact ⟨iff_of_false nofun (by omega), fun _ ht => nomatch ht⟩
    · rw [decodeFrames_succ_fits hc hb ho h]
      rcases k.eq_zero_or_pos with rfl | hpos
      · rw [decodeFrames, Nat.zero_add, Nat.mul_one]
        refine ⟨iff_of_true rfl h, ?_⟩
        rintro _ ⟨⟩
        exact ⟨rfl, rfl, hb⟩
      · have hnext : o + 48 * (k + 1) = o + 48 + 48 * k := by omega
        rw [hnext]
        exact ih _ _ hc hpos hb rfl

/-- Settles O11: `exec_decode_short`. -/
theorem shortBufferSignalsTruncatedPacket : Obligations.ShortBufferSignalsTruncatedPacket :=
  fun _ _ _ hc hb ho h => exec_decode_short hc hb ho h

/-- Settles O13: the frame is that of the one packet `requestPacket`, evaluated. -/
theorem buildRequestWritesTheMinimalRequest : Obligations.BuildRequestWritesTheMinimalRequest := by
  refine ⟨decode_encode .buildRequest, fun s hc => ?_⟩
  obtain ⟨t, ht, hok⟩ := exec_afterOk (i := .buildRequest) hc rfl
  exact ⟨encodeFrame requestPacket, t, ht, hok, rfl, by decide⟩

end Sys2Proof.Machine
end

section
/-! The timestamp converters (42_timestamp.md R161 to R164). Seconds and fraction are converted apart, yet only
once rounded: the two terms add up to one quotient, of the whole fixed-point value times the scale. Of that
quotient both properties are seen, that it grows with the value and that it is the floor of the exact
product. -/

namespace Sys2Proof.Machine

section Quotient

/-- Only the fraction's term is rounded, so scaling the parts apart scales the value (42_timestamp.md R160). -/
theorem scaled_parts_eq_div {k : Nat} (hk : 0 < k) (s f n : Nat) :
    s * n + f * n / k = (s * k + f) * n / k := by
  rw [Nat.add_mul, Nat.mul_right_comm, Nat.mul_comm _ k, Nat.mul_add_div hk]

/-- The rounded quotient is the floor of the exact product. -/
theorem floor_scaled_parts {k : Nat} (hk : 0 < k) (s f n : Nat) :
    ⌊((s : ℚ) + f / k) * n⌋ = (s * n + f * n / k : Nat) := by
  have hk' : (k : ℚ) ≠ 0 := Nat.cast_ne_zero.2 hk.ne'
  have hquot : ((s : ℚ) + f / k) * n = ((s * k + f) * n : Nat) / (k : ℚ) := by
    push_cast
    field_simp
  rw [hquot, scaled_parts_eq_div hk, Rat.floor_natCast_div_natCast, Int.natCast_ediv]

/-- A larger value gives no smaller quotient. -/
theorem scaled_parts_mono {k : Nat} (hk : 0 < k) {s f s' f' : Nat} (h : s * k + f ≤ s' * k + f')
    (n : Nat) : s * n + f * n / k ≤ s' * n + f' * n / k := by
  rw [scaled_parts_eq_div hk, scaled_parts_eq_div hk]
  exact Nat.div_le_div_right (Nat.mul_le_mul_right n h)

end Quotient

section Commands
variable {s : State}

theorem exec_ts64ToLocal_holds {x : NtpTimestamp64} (hc : admitted s.config = true)
    (hx : s.operands.ts64In = .holds x) :
    exec .ts64ToLocal s =
      .next (complete { s.results with localOut := .holds (toLocal s.config x) } s) := by
  rw [exec_admitted .ts64ToLocal hc, endingOf, hx, withOperand_holds]
  rfl

theorem exec_ts32ToNanos_holds {d : NtpTimestamp32} (hc : admitted s.config = true)
    (hd : s.operands.ts32In = .holds d) :
    exec .ts32ToNanos s = .next (complete { s.results with nanosOut := .holds (toNanos d) } s) := by
  rw [exec_admitted .ts32ToNanos hc, endingOf, hd, withOperand_holds]
  rfl

end Commands

/-- Settles O14: LOCAL_OUT is exact by `toLocal_toInt`. -/
theorem ts64ToLocalConvertsExactly : Obligations.Ts64ToLocalConvertsExactly := by
  refine ⟨decode_encode .ts64ToLocal, fun s x hc hx => ?_, fun s hc hx => ?_⟩
  · refine ⟨toLocal s.config x, _, exec_ts64ToLocal_holds hc hx, rfl, ?_⟩
    rw [toLocal_toInt hc, localTime_eq]
  · exact exec_afterUnwrittenPort (i := .ts64ToLocal) hc (by rw [endingOf, hx, withOperand_unwritten])

/-- Settles O15: NANOS_OUT is exact by `toNanos_toNat`, and bounded by `nanos_le`. -/
theorem ts32ToNanosConvertsExactly : Obligations.Ts32ToNanosConvertsExactly := by
  refine ⟨decode_encode .ts32ToNanos, fun s d hc hd => ?_, fun s hc hd => ?_⟩
  · refine ⟨toNanos d, _, exec_ts32ToNanos_holds hc hd, rfl, toNanos_toNat d, ?_⟩
    rw [toNanos_toNat]
    exact nanos_le d
  · exact exec_afterUnwrittenPort (i := .ts32ToNanos) hc (by rw [endingOf, hd, withOperand_unwritten])

/-- Settles O30: `scaled_parts_mono`, of the two results; the configuration adds the same `E` to both. -/
theorem conversionsAreMonotone : Obligations.ConversionsAreMonotone := by
  refine ⟨fun s s' x y hc hconfig hx hy h => ?_, fun s s' x y hc hconfig hx hy h => ?_⟩ <;>
    have hc' : admitted s'.config = true := hconfig ▸ hc
  · refine ⟨_, _, _, _, exec_ts64ToLocal_holds hc hx, exec_ts64ToLocal_holds hc' hy, rfl, rfl, ?_⟩
    have hmono := scaled_parts_mono (by decide) h s.config.unitsPerSecond
    rw [toLocal_toInt hc, toLocal_toInt hc', hconfig, localTime, localTime]
    omega
  · refine ⟨_, _, _, _, exec_ts32ToNanos_holds hc hx, exec_ts32ToNanos_holds hc' hy, rfl, rfl, ?_⟩
    rw [toNanos_toNat, toNanos_toNat]
    exact scaled_parts_mono (by decide) h (10 ^ 9)

/-- Settles O31: `floor_scaled_parts`, at the unit and at the billion of the two conversions. -/
theorem conversionsRoundDownOnce : Obligations.ConversionsRoundDownOnce := by
  refine ⟨fun s x hc hx => ?_, fun s d hc hd => ?_⟩
  · refine ⟨_, _, exec_ts64ToLocal_holds hc hx, rfl, ?_⟩
    have hfloor := floor_scaled_parts (k := 2 ^ 32) (by decide) x.seconds.toNat x.fraction.toNat
      s.config.unitsPerSecond
    rw [Nat.cast_pow, Nat.cast_ofNat] at hfloor
    rw [toLocal_toInt hc, hfloor, localTime, Nat.cast_add, Int.add_assoc]
  · refine ⟨_, _, exec_ts32ToNanos_holds hc hd, rfl, ?_⟩
    have hfloor := floor_scaled_parts (k := 2 ^ 16) (by decide) d.seconds.toNat d.fraction.toNat
      (10 ^ 9)
    rw [Nat.cast_pow, Nat.cast_pow, Nat.cast_ofNat, Nat.cast_ofNat] at hfloor
    rw [toNanos_toNat, hfloor, nanos]

end Sys2Proof.Machine
end

section
/-! Reference-ID rendering (43_refid.md R180 to R183). The text form is the prefix before the first 0x00; the
address form joins numerals, each of which is read off the digits it is written from. -/

namespace Sys2Proof.Machine

section Text

/-- The length of the text is the least index of a 0x00, or 4 (R181). -/
def textLength (r : RefId) : Nat := r.toList.findIdx fun b => b == 0

theorem renderText_eq_take (r : RefId) : renderText r = r.toList.take (textLength r) := by
  simp only [renderText, textLength, List.takeWhile_eq_take_findIdx_not, bne, Bool.not_not]

theorem textLength_le (r : RefId) : textLength r ≤ 4 :=
  List.findIdx_le_length.trans_eq r.length_toList

theorem getElem_ne_zero_of_lt_textLength {r : RefId} {i : Nat} (h : i < 4) (hi : i < textLength r) :
    r[i] ≠ 0#8 := by
  simpa using List.not_of_lt_findIdx hi

theorem getElem_textLength_eq_zero {r : RefId} (h : textLength r < 4) : r[textLength r] = 0#8 := by
  have hlen : textLength r < r.toList.length := h.trans_eq r.length_toList.symm
  simpa [textLength] using List.findIdx_getElem (w := hlen)

end Text

section Address

theorem asciiDigit_toNat {d : Nat} (h : d < 10) : (asciiDigit d).toNat = 0x30 + d := by
  rw [asciiDigit, BitVec.toNat_ofNat]
  omega

/-- Reading ASCII digits gives the number the digits stand for. -/
theorem foldl_asciiDigit {ds : List Nat} (h : ∀ d ∈ ds, d < 10) (v : Nat) :
    (ds.map asciiDigit).foldl (fun v d => 10 * v + (d.toNat - 0x30)) v =
      ds.foldl (fun v d => 10 * v + d) v := by
  rw [List.foldl_map]
  refine List.foldl_ext _ _ v fun v d hd => ?_
  rw [asciiDigit_toNat (h d hd), Nat.add_sub_cancel_left]

/-- Digits with no leading zero are the numeral of the number they stand for (R182). -/
theorem isDecimalNumeral_map_asciiDigit {d n : Nat} {ds : List Nat} (h : ∀ e ∈ d :: ds, e < 10)
    (hlead : ds ≠ [] → d ≠ 0) (hn : (d :: ds).foldl (fun v d => 10 * v + d) 0 = n) :
    IsDecimalNumeral ((d :: ds).map asciiDigit) n := by
  refine ⟨nofun, ?digits, ?noLeadingZero, (foldl_asciiDigit h 0).trans hn⟩
  case digits =>
    rintro _ hc
    obtain ⟨e, he, rfl⟩ := List.mem_map.1 hc
    have hlt := h e he
    rw [asciiDigit_toNat hlt]
    omega
  case noLeadingZero =>
    intro hlen hzero
    have hnat := congrArg BitVec.toNat (Option.some.inj hzero)
    rw [asciiDigit_toNat (h d List.mem_cons_self)] at hnat
    refine hlead ?_ (Nat.add_left_cancel hnat)
    rintro rfl
    exact Nat.lt_irrefl 1 hlen

/-- `dec(x)` is the numeral of `toNat(x)` (R182): one, two or three digits. -/
theorem isDecimalNumeral_decimal (x : Byte) : IsDecimalNumeral (decimal x) x.toNat := by
  have hlt := x.isLt
  rw [decimal]
  split
  next h1 =>
    refine isDecimalNumeral_map_asciiDigit (d := x.toNat) (ds := []) ?_ nofun ?_
    · simpa using h1
    · simp
  next h1 =>
    split
    next h2 =>
      refine isDecimalNumeral_map_asciiDigit (d := x.toNat / 10) (ds := [x.toNat % 10]) ?_
        (fun _ => by omega) ?_
      · simp only [List.forall_mem_cons, List.not_mem_nil, false_imp_iff, implies_true, and_true]
        omega
      · simp only [List.foldl_cons, List.foldl_nil]
        omega
    next h2 =>
      refine isDecimalNumeral_map_asciiDigit (d := x.toNat / 100)
        (ds := [x.toNat / 10 % 10, x.toNat % 10]) ?_ (fun _ => by omega) ?_
      · simp only [List.forall_mem_cons, List.not_mem_nil, false_imp_iff, implies_true, and_true]
        omega
      · simp only [List.foldl_cons, List.foldl_nil]
        omega

end Address

theorem render_one (r : RefId) : render 1 r = renderText r := if_pos rfl

theorem render_ne_one {st : Byte} (h : st ≠ 1) (r : RefId) : render st r = renderIpv4 r := if_neg h

/-- The rendering depends on the stratum only through the test `= 1` (R183). -/
theorem render_congr {st st' : Byte} (h : st = 1 ↔ st' = 1) (r : RefId) :
    render st r = render st' r := by
  rw [render, render, if_congr h rfl rfl]

section Commands
variable {s : State}

theorem exec_refidRender_holds {st : Byte} {r : RefId} (hc : admitted s.config = true)
    (hst : s.operands.stratumIn = .holds st) (hr : s.operands.refidIn = .holds r) :
    exec .refidRender s = .next (complete { s.results with textOut := .holds (render st r) } s) := by
  rw [exec_admitted .refidRender hc, endingOf, hst, hr, withOperand_holds, withOperand_holds]
  rfl

theorem endingOf_refidRender_unwritten {c : Config} {o : Operands}
    (h : o.stratumIn = .unwritten ∨ o.refidIn = .unwritten) :
    endingOf c o .refidRender = .unwritten := by
  rw [endingOf]
  rcases h with hst | hr
  · rw [hst, withOperand_unwritten]
  · rw [hr]
    cases o.stratumIn <;> rfl

end Commands

/-- Settles O16: the number of bytes is `textLength`. -/
theorem stratumOneRendersText : Obligations.StratumOneRendersText := by
  intro s r hc hst hr
  refine ⟨textLength r, _, exec_refidRender_holds hc hst hr, ?_, textLength_le r,
    fun _ => getElem_ne_zero_of_lt_textLength, getElem_textLength_eq_zero⟩
  rw [render_one, renderText_eq_take]
  rfl

/-- Settles O17: the numerals are those of `isDecimalNumeral_decimal`, one to three digits each. -/
theorem otherStrataRenderTheAddress : Obligations.OtherStrataRenderTheAddress := by
  intro s st r hc hst hne hr
  refine ⟨decimal r[0], decimal r[1], decimal r[2], decimal r[3], _,
    exec_refidRender_holds hc hst hr, ?_, isDecimalNumeral_decimal _, isDecimalNumeral_decimal _,
    isDecimalNumeral_decimal _, isDecimalNumeral_decimal _, ?_⟩
  · rw [render_ne_one hne]
    rfl
  · have hlen := renderIpv4_length r
    simp only [renderIpv4, List.length_append, List.length_singleton] at hlen
    omega

/-- Settles O18: both commands write the same rendering (`render_congr`). -/
theorem renderDependsOnStratumOneOnly : Obligations.RenderDependsOnStratumOneOnly := by
  refine ⟨fun s s' st st' r hc hc' hst hst' hiff hr hr' => ?_, decode_encode .refidRender⟩
  refine ⟨render st r, _, _, exec_refidRender_holds hc hst hr, exec_refidRender_holds hc' hst' hr',
    rfl, congrArg Slot.holds (render_congr hiff r).symm, ?_, fun hne => ?_⟩
  · rintro rfl
    rw [render_one]
    exact renderText_length r
  · rw [render_ne_one hne]
    exact renderIpv4_length r

/-- Settles O19: an unwritten operand of the two ends the command. -/
theorem renderNeedsBothOperands : Obligations.RenderNeedsBothOperands :=
  fun _ hc h => exec_afterUnwrittenPort hc (endingOf_refidRender_unwritten h)

end Sys2Proof.Machine
end

section
/-! What ends a command early (60_exceptions.md R201 to R206), told apart by how the command ends: an operand
port of its list is unwritten, or all are written and it is DECODE of a buffer too short. A word that names no
operation never comes to a command; nor does anything under a configuration that is not admitted. -/

namespace Sys2Proof.Machine

section Endings
variable {s : State} {i : Instr} {o : Operands} {c : Config}

/-- Of a command that goes on with its operand, the operand alone decides whether it ends with
UNWRITTEN_PORT. -/
theorem withOperand_eq_unwritten {α : Type} {p : Slot α} {k : α → CommandEnding}
    (hk : ∀ v, k v ≠ .unwritten) : CommandEnding.withOperand p k = .unwritten ↔ p = .unwritten := by
  cases p <;> simp [hk]

/-- And either of two operands does, the other being written or not (60_exceptions.md R206). -/
theorem withOperand_withOperand_eq_unwritten {α β : Type} {p : Slot α} {q : Slot β}
    {k : α → β → CommandEnding} (hk : ∀ v w, k v w ≠ .unwritten) :
    CommandEnding.withOperand p (fun v => CommandEnding.withOperand q (k v)) = .unwritten ↔
      p = .unwritten ∨ q = .unwritten := by
  cases p <;> cases q <;> simp [hk]

theorem Slot.map_eq_unwritten {α β : Type} {p : Slot α} {f : α → β} :
    p.map f = .unwritten ↔ p = .unwritten := by
  cases p <;> simp

/-- An operand port has a `written` bit, clear or set (10_state.md R28). -/
theorem portWritten_eq_false_iff :
    ∀ p ∈ operandPorts, portWritten s p = false ↔ portSlot s p = some .unwritten := by
  intro p hp
  have hcmd : p ≠ .cmd := by
    rintro rfl
    exact absurd hp (by decide)
  obtain ⟨slot, hslot⟩ := Option.ne_none_iff_exists'.1 (mt portSlot_eq_none_iff.1 hcmd)
  rw [portWritten, hslot]
  cases slot <;> simp

/-- A command ends with UNWRITTEN_PORT exactly where an operand port of its list is unwritten
(60_exceptions.md R203). -/
theorem endingOf_eq_unwritten_iff :
    endingOf s.config s.operands i = .unwritten ↔ ∃ p ∈ operandsOf i, portSlot s p = some .unwritten := by
  cases i with
  | buildRequest => simp [endingOf, operandsOf]
  | decode =>
    rw [endingOf, withOperand_withOperand_eq_unwritten fun buf off => by split <;> nofun]
    simp [operandsOf, portSlot, Slot.map_eq_unwritten]
  | refidRender =>
    rw [endingOf, withOperand_withOperand_eq_unwritten fun st r => by nofun]
    simp [operandsOf, portSlot, Slot.map_eq_unwritten]
  | encode | flagsPack | flagsUnpack | ts64ToLocal | ts32ToNanos =>
    rw [endingOf, withOperand_eq_unwritten fun v => by nofun]
    simp [operandsOf, portSlot, Slot.map_eq_unwritten]

/-- DECODE completes only where the frame fits (41_framer.md R132). -/
theorem fits_of_decode_completes {w : Results → Results} (h : endingOf c o .decode = .completes w) :
    ∃ buf off, o.bufIn = .holds buf ∧ o.offIn = .holds off ∧ off + 48 ≤ buf.length := by
  simp only [endingOf, withOperand_eq_completes] at h
  obtain ⟨buf, hb, off, ho, h⟩ := h
  split at h
  next hfit => exact ⟨buf, off, hb, ho, hfit⟩
  next => cases h

/-- DECODE ends with TRUNCATED_PACKET only where the frame does not fit (60_exceptions.md R201). -/
theorem short_of_decode_truncated (h : endingOf c o .decode = .truncated) :
    ∃ buf off, o.bufIn = .holds buf ∧ o.offIn = .holds off ∧ buf.length < off + 48 := by
  simp only [endingOf, withOperand_eq_truncated] at h
  obtain ⟨buf, hb, off, ho, h⟩ := h
  split at h
  next => cases h
  next hfit => exact ⟨buf, off, hb, ho, Nat.not_le.1 hfit⟩

/-- A command that does not end with UNWRITTEN_PORT has every operand port of its list written. -/
theorem operands_written (h : endingOf s.config s.operands i ≠ .unwritten) :
    ∀ p ∈ operandsOf i, portWritten s p = true := by
  intro p hp
  by_contra hw
  refine h (endingOf_eq_unwritten_iff.2 ⟨p, hp, ?_⟩)
  exact (portWritten_eq_false_iff p (operandsOf_subset i hp)).1 (Bool.eq_false_iff.2 hw)

theorem exec_unwritten (hc : admitted s.config = true) {p : Port} (hp : p ∈ operandsOf i)
    (h : portSlot s p = some .unwritten) : exec i s = .next (raiseUnwrittenPort i s) := by
  rw [exec_admitted i hc, endingOf_eq_unwritten_iff.2 ⟨p, hp, h⟩]
  rfl

/-- The `written` bits that are cleared are those of the command's own list (10_state.md R30). -/
theorem portSlot_clearResults {r : Results} (h : s.results = clearResults i r) :
    ∀ q ∈ resultsOf i, portSlot s q = some .unwritten := by
  cases i <;> simp [resultsOf, portSlot, clearResults, h]

end Endings

section IllegalWords
variable {s : State} {w : Byte}

/-- A word that names no operation raises `IllegalCommand` before any other check (60_exceptions.md R202,
R206). -/
theorem issueCommand_illegal (h : ∀ i, w ≠ encode i) :
    issueCommand w s = underConfig s (raiseIllegalCommand s) := by
  obtain ⟨i, hi, -⟩ | ⟨e, -, he⟩ := issueCommand_cases w s
  · exact absurd (decode_eq_ok_iff_eq_encode.1 hi) (h i)
  · exact he

theorem step_illegalCommand (hc : admitted s.config = true)
    (ha : nextAction s = some (.issue w) ∨ nextAction s = some (.write 0x00 (.byte w)))
    (h : ∀ i, w ≠ encode i) : step s = .next (advance (raiseIllegalCommand s)) := by
  rw [step_of_command hc ha, issueCommand_illegal h, underConfig_admitted hc, mapNext_next]

/-- The operations' words are 0x01 to 0x08 (30_encoding.md R71). -/
theorem ne_encode_of_reserved (h : w.extractLsb' 4 4 ≠ 0#4 ∨ w.toNat = 0 ∨ 9 ≤ w.toNat) (i : Instr) :
    w ≠ encode i := by
  rintro rfl
  cases i <;> exact absurd h (by decide)

end IllegalWords

section FaultRecord
variable {s t : State}

/-- The run is recorded as faulted after the transition, or nothing of FAULTS and the record has changed
(60_exceptions.md R209). -/
def FaultsRecorded (s t : State) : Prop :=
  t.run.faulted = true ∨ (t.faults = s.faults ∧ t.run.faulted = s.run.faulted)

theorem faultsRecorded_exec {i : Instr} (h : exec i s = .next t) : FaultsRecorded s t := by
  obtain ⟨-, ⟨r, rfl, -⟩ | rfl | ⟨-, rfl⟩⟩ := exec_next_cases h
  · exact .inr ⟨rfl, rfl⟩
  · exact .inl rfl
  · exact .inr ⟨rfl, rfl⟩

theorem faultsRecorded_issueCommand {w : Byte} (h : issueCommand w s = .next t) : FaultsRecorded s t := by
  obtain ⟨i, -, hi⟩ | ⟨e, -, he⟩ := issueCommand_cases w s
  · exact faultsRecorded_exec (hi.symm.trans h)
  · obtain ⟨-, rfl⟩ := underConfig_next_iff.1 (he.symm.trans h)
    exact .inl rfl

/-- RESET alone clears FAULTS without a record (70_reset_and_hazards.md R230). -/
theorem faultsRecorded_act {a : HostAction} (hne : a ≠ .reset) (h : act a s = .next t) :
    FaultsRecorded s t := by
  cases a with
  | write n v =>
    obtain ⟨w, -, -, hw⟩ | ⟨p, o, -, -, -, rfl⟩ := writePort_next_cases h
    · exact faultsRecorded_issueCommand hw
    · exact .inr ⟨rfl, rfl⟩
  | issue w => exact faultsRecorded_issueCommand h
  | read n =>
    obtain ⟨-, p, -, ⟨v, -, rfl⟩ | ⟨-, rfl⟩⟩ := readPort_next_cases h
    · exact .inr ⟨rfl, rfl⟩
    · exact .inl rfl
  | reset => exact absurd rfl hne

theorem act_reset_faulted (h : act .reset s = .next t) : t.run.faulted = s.run.faulted := by
  obtain ⟨-, rfl⟩ := underConfig_next_iff.1 h
  rfl

end FaultRecord

/-- Settles O12: DECODE ends with UNWRITTEN_PORT by `endingOf_eq_unwritten_iff`, and an illegal word does not
come to a command (`step_illegalCommand`). -/
theorem checksAreMadeInPriorityOrder : Obligations.ChecksAreMadeInPriorityOrder := by
  refine ⟨fun s hc h => ?_, fun s w hc ha hw => ?_⟩
  · refine exec_afterUnwrittenPort (i := .decode) hc (endingOf_eq_unwritten_iff.2 ?_)
    obtain hb | ho := h
    · exact ⟨.bufIn, by decide, by rw [portSlot, hb, Slot.map_unwritten]⟩
    · exact ⟨.offIn, by decide, by rw [portSlot, ho, Slot.map_unwritten]⟩
  · exact ⟨_, step_illegalCommand hc ha hw, rfl, rfl, rfl⟩

/-- Settles O20: the state is that of `raiseUnwrittenPort`. -/
theorem unwrittenOperandEndsTheCommand : Obligations.UnwrittenOperandEndsTheCommand := by
  intro s i p hc hp hslot
  have h := exec_unwritten hc hp hslot
  exact ⟨_, h, rfl, rfl, rfl, rfl, rfl, portSlot_clearResults rfl,
    portSlot_of_clearResults_eq (exec_clearResults h)⟩

/-- Settles O24, by how the command ends (`endingOf`). -/
theorem everyCommandEndsWithOneStatus : Obligations.EveryCommandEndsWithOneStatus := by
  intro s i hc
  refine ⟨_, exec_admitted i hc, ?_⟩
  cases he : endingOf s.config s.operands i with
  | unwritten =>
    obtain ⟨p, hp, hslot⟩ := endingOf_eq_unwritten_iff.1 he
    have hw := (portWritten_eq_false_iff p (operandsOf_subset i hp)).2 hslot
    exact ⟨.inl ⟨rfl, p, hp, hw⟩, fun _ => rfl, fun hne => absurd rfl hne⟩
  | completes w =>
    refine ⟨.inr ⟨operands_written (by simp [he]), .inl ⟨rfl, ?_⟩⟩, nofun, fun _ => ⟨rfl, rfl⟩⟩
    rintro rfl
    exact fits_of_decode_completes he
  | truncated =>
    obtain rfl := eq_decode_of_truncated he
    exact ⟨.inr ⟨operands_written (by simp [he]), .inr ⟨rfl, rfl, short_of_decode_truncated he⟩⟩, nofun,
      fun _ => ⟨rfl, rfl⟩⟩

/-- Settles O41: of the action at the host index, RESET keeps the record and any other action sets it or
leaves FAULTS as it was (`faultsRecorded_act`). -/
theorem faultRecordIsNeverCleared : Obligations.FaultRecordIsNeverCleared := by
  intro s t hst
  obtain ⟨-, a, u, ha, hu, rfl⟩ := step_next_cases hst
  rw [ha, advance_faulted, advance_faults]
  by_cases hreset : a = .reset
  · obtain rfl := hreset
    have hsame := act_reset_faulted hu
    exact ⟨hsame.trans, fun _ hne => absurd rfl hne, fun _ => hsame⟩
  · obtain hrec | ⟨hfaults, hsame⟩ := faultsRecorded_act hreset hu
    · exact ⟨fun _ => hrec, fun _ _ => hrec, fun h => absurd (Option.some.inj h) hreset⟩
    · exact ⟨hsame.trans, fun hne => absurd hfaults hne, fun h => absurd (Option.some.inj h) hreset⟩

/-- Settles O6: such a word is no operation's (`ne_encode_of_reserved`). -/
theorem illegalCommandChangesNoPort : Obligations.IllegalCommandChangesNoPort :=
  fun _ _ hc ha h => step_illegalCommand hc ha (ne_encode_of_reserved h)

/-- Settles O33: every transition is one under the configuration (`underConfig`), and a step tests it before
any action. -/
theorem otherConfigurationsAreRefused : Obligations.OtherConfigurationsAreRefused := by
  refine ⟨fun c hc => underConfig_refused hc, fun c hc => underConfig_admitted hc, fun s i hc => ⟨?_, ?_⟩⟩
  · rw [exec_eq, underConfig_refused hc]
  · rw [step, runNextAction, hc, if_neg Bool.false_ne_true]

end Sys2Proof.Machine
end

section
/-! What no action but RESET clears (70_reset_and_hazards.md R230): FAULTS is sticky (10_state.md R35), a
command writes no operand port, and a WRITE sets a `written` bit. -/

namespace Sys2Proof.Machine

section Retained
variable {s t : State}

/-- The transition clears no FAULTS bit and no operand port's `written` bit. -/
structure Retained (s t : State) : Prop where
  faults : s.faults &&& t.faults = s.faults
  written : ∀ p ∈ operandPorts, portWritten s p = true → portWritten t p = true

/-- A transition that keeps the operand ports clears no `written` bit of theirs. -/
theorem retained_of_operands_eq (hop : t.operands = s.operands)
    (hf : s.faults &&& t.faults = s.faults) : Retained s t := by
  refine ⟨hf, fun p hp hw => ?_⟩
  rwa [portWritten, portSlot_of_operands_eq hop p hp]

/-- The bits of FAULTS stay when one is set (10_state.md R35). -/
theorem and_or_self_left (f bit : BitVec 8) : f &&& (f ||| bit) = f := by
  rw [BitVec.and_comm, BitVec.or_comm]
  exact or_and_self_right bit f

theorem retained_failCommand (st : Status) (b : Option (BitVec 8)) (r : Results) (s : State) :
    Retained s (failCommand st b r s) := by
  refine retained_of_operands_eq (failCommand_operands ..) ?_
  cases b with
  | none => exact BitVec.and_self
  | some bit => exact and_or_self_left s.faults bit

theorem retained_exec {i : Instr} (h : exec i s = .next t) : Retained s t := by
  obtain ⟨-, ⟨r, rfl, -⟩ | rfl | ⟨-, rfl⟩⟩ := exec_next_cases h
  · exact retained_of_operands_eq rfl BitVec.and_self
  · exact retained_failCommand _ _ _ s
  · exact retained_failCommand _ _ _ s

theorem retained_issueCommand {w : Byte} (h : issueCommand w s = .next t) : Retained s t := by
  obtain ⟨i, -, hi⟩ | ⟨e, -, he⟩ := issueCommand_cases w s
  · exact retained_exec (hi.symm.trans h)
  · obtain ⟨-, rfl⟩ := underConfig_next_iff.1 (he.symm.trans h)
    exact retained_failCommand _ _ _ s

/-- A WRITE sets the `written` bit of its port and leaves the others (10_state.md R40). -/
theorem portWritten_writeOperand {p q : Port} {v : PortValue} {o : Operands}
    (h : writeOperand s.operands p v = some o) (hq : portWritten s q = true) :
    portWritten { s with operands := o } q = true := by
  rw [portWritten, portSlot_writeOperand h]
  obtain rfl | hne := eq_or_ne q p
  · rw [Function.update_self]
    rfl
  · rwa [Function.update_of_ne hne]

theorem retained_act {a : HostAction} (hne : a ≠ .reset) (h : act a s = .next t) : Retained s t := by
  cases a with
  | write n v =>
    obtain ⟨w, -, -, hw⟩ | ⟨p, o, -, ho, -, rfl⟩ := writePort_next_cases h
    · exact retained_issueCommand hw
    · exact ⟨BitVec.and_self, fun q _ => portWritten_writeOperand ho⟩
  | issue w => exact retained_issueCommand h
  | read n =>
    obtain ⟨-, p, -, ⟨v, -, rfl⟩ | ⟨-, rfl⟩⟩ := readPort_next_cases h
    · exact retained_of_operands_eq rfl BitVec.and_self
    · exact retained_of_operands_eq rfl (and_or_self_left s.faults unwrittenPortBit)
  | reset => exact absurd rfl hne

end Retained

/-- Settles O37: RESET is `resetBlock`, and every other action keeps what FAULTS and the operand ports'
`written` bits hold (`retained_act`); the advance of the host index changes no port. -/
theorem onlyResetClearsFaultsAndOperands : Obligations.OnlyResetClearsFaultsAndOperands := by
  refine ⟨fun s hc ha => step_of_act hc ha (underConfig_admitted hc), fun s t a ha hne hst => ?_⟩
  obtain ⟨-, b, u, hb, hu, rfl⟩ := step_next_cases hst
  cases ha.symm.trans hb
  obtain ⟨hfaults, hwritten⟩ := retained_act hne hu
  exact ⟨hfaults, hwritten⟩

end Sys2Proof.Machine
end

section
/-! A run of allowed actions (70_reset_and_hazards.md R238, R239), by induction on the actions that remain:
each is one step, after which those behind it remain. -/

namespace Sys2Proof.Machine

/-- A run goes on from the state its first step answers. -/
theorem run_succ_of_step {M : Host.Core} {s t : M.State} (h : M.step s = .next t) (k : Nat) :
    M.run (k + 1) s = M.run k t := by
  rw [Host.Core.run, h]

section Run
variable {s t : State}

/-- The actions of the program from the host index on (10_state.md R45). -/
def remaining (s : State) : List HostAction := s.run.program.drop s.run.h

theorem nextAction_eq_head?_remaining (s : State) : nextAction s = (remaining s).head? :=
  List.head?_drop.symm

/-- An action taken is one less to take. -/
theorem remaining_eq_tail (hp : t.run.program = s.run.program) (hh : t.run.h = s.run.h + 1) :
    remaining t = (remaining s).tail := by
  rw [remaining, remaining, List.tail_drop, hp, hh]

/-- Within the program, the run has ended where no action remains (70_reset_and_hazards.md R239). -/
theorem runEnded_of_remaining_eq_nil (hle : s.run.h ≤ s.run.program.length)
    (h : remaining s = []) : s.runEnded = true :=
  beq_iff_eq.2 (hle.antisymm (List.drop_eq_nil_iff.1 h))

theorem nextAction_eq_none_of_runEnded (h : s.runEnded = true) : nextAction s = none :=
  List.getElem?_eq_none (beq_iff_eq.1 h).ge

theorem step_of_runEnded (hc : admitted s.config = true) (h : s.runEnded = true) :
    step s = .refused .runEnded := by
  rw [step, runNextAction, if_pos hc, nextAction_eq_none_of_runEnded h]

/-- As many steps as actions remain take them all: the run ends, of the same program and configuration. -/
theorem run_remaining : ∀ (as : List HostAction) (s : State), admitted s.config = true →
    s.run.h ≤ s.run.program.length → remaining s = as → (∀ a ∈ as, a.allowed = true) →
    ∃ t : State, core.run as.length s = .next t ∧ t.runEnded = true ∧
      t.run.program = s.run.program ∧ t.config = s.config := by
  intro as
  induction as with
  | nil => exact fun s _ hle hrem _ => ⟨s, rfl, runEnded_of_remaining_eq_nil hle hrem, rfl, rfl⟩
  | cons a as ih =>
    intro s hc hle hrem hall
    obtain ⟨ha, has⟩ := List.forall_mem_cons.1 hall
    have hnext : nextAction s = some a := by
      rw [nextAction_eq_head?_remaining, hrem, List.head?_cons]
    obtain ⟨u, hu, hh, hprogram, hconfig⟩ := everyAllowedActionIsOneStep s a hc hnext ha
    have hle' : u.run.h ≤ u.run.program.length := by
      rw [hh, hprogram]
      exact h_lt_of_nextAction hnext
    have hrem' : remaining u = as := by
      rw [remaining_eq_tail hprogram hh, hrem, List.tail_cons]
    obtain ⟨t, ht, hend, htp, htc⟩ := ih u (hconfig ▸ hc) hle' hrem' has
    exact ⟨t, (run_succ_of_step hu as.length).trans ht, hend, htp.trans hprogram, htc.trans hconfig⟩

end Run

/-- Settles O40: `run_remaining` gives the run, and `step_of_runEnded` the refusal of a further step. -/
theorem runsOfAllowedActionsReachTheirEnd : Obligations.RunsOfAllowedActionsReachTheirEnd := by
  intro s hc hle hall
  obtain ⟨t, ht, hend, hprogram, hconfig⟩ := run_remaining (remaining s) s hc hle rfl hall
  rw [remaining, List.length_drop] at ht
  exact ⟨t, ht, hend, hprogram, hconfig, step_of_runEnded (hconfig ▸ hc) hend⟩

end Sys2Proof.Machine
end
